-- ==== Sys2Proof/Word.lean ====
section
/-! DEFINITION. The word types of the engine: bytes of the stream, decoded values, cursors and counters. -/

namespace Sys2Proof

/-- One byte of the input space (00_scope.md R5). -/
abbrev Byte := BitVec 8

/-- One decoded value, `VALW = 32` bits, unsigned (00_scope.md R3, R6). -/
abbrev Word32 := BitVec 32

/-- A cursor or counter, `CURW = 64` bits (00_scope.md R4). -/
abbrev Word64 := BitVec 64

end Sys2Proof
end

