-- ==== Sys2Proof/Config.lean ====
section
/-! DEFINITION. What is fixed for one engine: the constants of 00_scope.md R3, the parameters R4 leaves open, and the free values of R11. -/

namespace Sys2Proof.Config

/-- `EXCAP`, the capacity of the exception scratch array (00_scope.md R3). -/
abbrev excap : Nat := 320

/-- The largest legal `INLEN`, so that `INLEN + 32` fits 64 bits (70_reset_and_hazards.md R224). -/
abbrev maxInlen : Nat := 2 ^ 64 - 33

/-- The longest block, BPVX in mode V with `b = 32` and 255 codewords VB5 (30_encoding.md R91). -/
abbrev longestBlock : Nat := 2556

/-- `VBDEC_EMPTY_CHECKS_SENTINEL` (00_scope.md R4, 42_vbdec.md R139): the spec leaves it OPEN, so it has no
body and every claim holds for both values. Log entry 7. -/
opaque vbdecEmptyChecksSentinel : Bool

/-- The draw made where data `content` stands (00_scope.md R11): applied to the whole state, State's counter of draws
included, so that a draw is fresh and nothing relates the draws of two different states. Nothing forbids, then, that the
values drawn depend on what was there: an engine that leaves old words in place is one of those the model describes
(60_exceptions.md R196). No body. Log entry 6. -/
opaque drawKey {α : Type} (content : α) : Nat

/-- The free values of the model (00_scope.md R11): a value of `w` bits that nothing constrains, one for each
draw and each place (`slot`) that draw fills. No body. Log entries 4 and 5. -/
opaque freeBits : (w draw slot : Nat) → BitVec w

/-- How a platform could lay the bytes of an output word. DESIGN CHOICE (log entry 21): 00_scope.md R4 leaves `OUT_BYTE_ORDER`
OPEN and names no candidates; that it is one of these two is the model's. -/
inductive ByteOrder where
  | little
  | big
deriving DecidableEq, Repr, Inhabited

/-- `OUT_BYTE_ORDER`, OPEN; no rule reads it (00_scope.md R4). Log entry 21. -/
opaque outByteOrder : ByteOrder

/-- `IN_BASE`, OPEN; no rule reads it (00_scope.md R4). DESIGN CHOICE (log entry 21): the spec gives no width; 64 bits is the
model's. -/
opaque inBase : Word64

/-- `OUT_BASE`, OPEN; no rule reads it (00_scope.md R4). DESIGN CHOICE (log entry 21): 64 bits, as `IN_BASE`. -/
opaque outBase : Word64

/-- `CSR_BASE`, OPEN; no rule reads it (00_scope.md R4). DESIGN CHOICE (log entry 21): 64 bits, as `IN_BASE`. -/
opaque csrBase : Word64

end Sys2Proof.Config
end

