-- ==== Sys2Proof/Syntax.lean ====
section
/-! DEFINITION. The instructions: one constructor per mnemonic of spec/opcode_table.json. -/

namespace Sys2Proof

/-- The three decode contexts of 30_encoding.md R97 (the table's "space"). -/
inductive Space where
  /-- The first byte of a block, at `IP`. -/
  | header
  /-- The first byte of a VB run of `n > 0` values. -/
  | runFirst
  /-- The first byte of a codeword that is not the first byte of its run. -/
  | vbLead
deriving DecidableEq, Repr

/-- The decode mode, which the sequencer supplies and no byte encodes (30_encoding.md R83). -/
inductive Mode where
  /-- 256 values, main payload in the 8-lane layout. -/
  | V
  /-- 1 to 255 values, main payload in the scalar layout. -/
  | S
deriving DecidableEq, Repr

/-- An instruction. The rows of spec/opcode_table.json that share a mnemonic are the pieces of one byte range
(30_encoding.md R97), so they share a constructor. Only the opcode byte is syntax; every other byte of a block is
payload that the instruction reads when it runs (30_encoding.md R97). -/
inductive Instr where
  /-- BP: header `H[7:6] = 00` with width field `b` (30_encoding.md R84). -/
  | bp (b : BitVec 6)
  /-- BPVX: header `H[7:6] = 01` (30_encoding.md R85). -/
  | bpvx (b : BitVec 6)
  /-- BPBX: header `H[7:6] = 10` (30_encoding.md R86). -/
  | bpbx (b : BitVec 6)
  /-- CONST: header `H[7:6] = 11` (30_encoding.md R87). -/
  | const (b : BitVec 6)
  /-- A header byte whose width field is 33 .. 63 (30_encoding.md R93). -/
  | illegalHeader (h : Byte)
  /-- VB1: lead byte 0 .. 176 (30_encoding.md R89). -/
  | vb1 (x : Byte)
  /-- VB2: lead byte 177 .. 240. -/
  | vb2 (x : Byte)
  /-- VB3: lead byte 241 .. 248. -/
  | vb3 (x : Byte)
  /-- VB4: lead byte 249. -/
  | vb4
  /-- VB5: lead byte 250. -/
  | vb5
  /-- A lead byte 251 .. 254, or 255 when it is not the first byte of its run (30_encoding.md R95). -/
  | reservedVbLead (x : Byte)
  /-- VBRAW: 0xFF as the first byte of a run (30_encoding.md R88). -/
  | vbraw
  /-- UNPACK.S with start address, count and width; no encoding (40_bitunpack_scalar.md R110). -/
  | unpackS (a : Word64) (n : BitVec 9) (b : BitVec 6)
  /-- UNPACK.V with start address and width; no encoding (41_bitunpack_256v.md R120). -/
  | unpackV (a : Word64) (b : BitVec 6)
  /-- VBDEC with start address and count; no encoding (42_vbdec.md R130). -/
  | vbdec (a : Word64) (n : BitVec 9)
  /-- LAUNCH: the host's write of START = 1; no encoding (44_stream_driver.md R180). -/
  | launch
  /-- STEP.V: one block in mode V; no encoding (44_stream_driver.md R181). -/
  | stepV
  /-- STEP.S: the tail block in mode S; no encoding (44_stream_driver.md R182). -/
  | stepS
  /-- STEP.DONE: completion; no encoding (44_stream_driver.md R183). -/
  | stepDone
deriving DecidableEq, Repr

end Sys2Proof
end

