-- ==== Sys2Proof/Machine/State.lean ====
section
/-! DEFINITION. The state of one engine as plain data, everything spec/10_state.md names, and the reasons a step can stop. -/

namespace Sys2Proof.Machine

/-- `STATUS.STATE` (10_state.md R29). -/
inductive RunState where
  | idle
  | busy
  | done
  | error
deriving DecidableEq, Repr

/-- Block-local registers and scratch (10_state.md R22, R25, R38 to R41). Dead outside one block step, so a free
value after each (log entry 4); the units and codewords, run on their own, read and write them (log entry 15). -/
structure Scratch where
  /-- `H`, the header byte. -/
  h : Byte
  /-- `SHAPE = H[7:6]`. -/
  shape : BitVec 2
  /-- `B = H[5:0]`. -/
  b : BitVec 6
  /-- `BX`, the exception width of BPBX. -/
  bx : Byte
  /-- `NEX`, the number of exceptions. -/
  nex : BitVec 9
  /-- `NBLK`, the number of values of the block. -/
  nblk : BitVec 9
  /-- `MODE`, V = 1, S = 0. -/
  mode : BitVec 1
  /-- `ACC[0..7]`, the lane accumulators of UNPACK.V. -/
  acc : Vector Word64 8
  /-- `CNT`, the valid bits in each lane accumulator. -/
  cnt : BitVec 7
  /-- `SACC`, the accumulator of UNPACK.S. -/
  sacc : Word64
  /-- `SCNT`, the valid bits in `SACC`. -/
  scnt : BitVec 6
  /-- `M`, the exception bitmap. -/
  m : Vector Byte 32
  /-- `EX`, the exception values. -/
  ex : Vector Word32 Config.excap
  /-- `IDX`, the exception indices of BPVX. -/
  idx : Vector Byte 255
  /-- The values `v` a bit-unpacker returns (00_scope.md R12); the model's own place for them, log entry 15. -/
  v : Vector Word32 256
  /-- The length `len` a unit returns (00_scope.md R12); the model's own place, log entry 15. -/
  len : Word64
  /-- `p` of VBDEC, the address of the next codeword (42_vbdec.md R130); the model's own place, log entry 15. -/
  vp : Word64
  /-- `i` of VBDEC, the number of values decoded (42_vbdec.md R130); the model's own place, log entry 15. -/
  vi : BitVec 9
deriving DecidableEq, Repr

/-- A range `OUT[0 .. limit)` that a fault or a reset left unspecified, and the draw that fills it (60_exceptions.md
R196, 70_reset_and_hazards.md R220). -/
structure Flood where
  limit : Nat
  draw : Nat
deriving DecidableEq, Repr

/-- The output space (10_state.md R43): the words written, over the unspecified ranges, newest and shortest first. -/
structure OutMem where
  cells : List (Nat × Word32)
  floods : List Flood
deriving DecidableEq, Repr

/-- What the host can do between two engine steps (10_state.md R27, R37; 70_reset_and_hazards.md R220 to R227). -/
inductive HostAccess where
  /-- Write a host register by index. -/
  | writeReg (index : Nat) (v : Word64)
  /-- Read a host register by index. -/
  | readReg (index : Nat)
  /-- Place a byte in the input space. -/
  | writeIn (addr : Word64) (v : Byte)
  /-- Write a word of the output space. -/
  | writeOut (index : Word64) (v : Word32)
  /-- Read a word of the output space. -/
  | readOut (index : Word64)
  /-- Reset the engine. -/
  | reset
deriving DecidableEq, Repr

/-- Who moves next (log entry 8). -/
inductive Turn where
  | engine
  | host (a : HostAccess)
deriving DecidableEq, Repr


/-- The state of one engine. -/
structure State where
  /-- `STATUS.STATE` (R29). -/
  runState : RunState
  /-- `NVAL` (R30). -/
  nval : Word64
  /-- `INLEN` (R31). -/
  inlen : Word64
  /-- `CONSUMED` (R32). -/
  consumed : Word64
  /-- `ECAUSE[2:0]` (R33). -/
  ecause : BitVec 3
  /-- `EIP` (R34). -/
  eip : Word64
  /-- `EOP` (R35). -/
  eop : Word64
  /-- `EINFO` (R36). -/
  einfo : Word64
  /-- `IP`, the program counter (R23). -/
  ip : Word64
  /-- `OP`, the output cursor (R24). -/
  op : Word64
  /-- Block-local registers and scratch (R25, R38 to R41). -/
  scratch : Scratch
  /-- `IN`, payload and pad bytes (R20, R42). -/
  inMem : List Host.Cell
  /-- `OUT` (R43). -/
  out : OutMem
  /-- The model's own: how many draws of free values were made so far (log entry 6). -/
  draws : Nat
  /-- The model's own: who moves next, the engine when the list is empty (log entry 8). -/
  turns : List Turn
  /-- The model's own: what the host's last read returned (log entry 20). -/
  hostData : Word64
deriving DecidableEq, Repr

/-- Why a step stops without a next state. The four decode faults of 60_exceptions.md are not here: they are taken,
and the machine has a next state. -/
inductive Fault where
  /-- Raised by `exec` of an instruction where its rule's `require` does not hold (44_stream_driver.md R181 to R183:
  the engine is not BUSY, or another step is the enabled one), or of a unit or codeword outside a launch. `step`
  raises it in no state with `OP <= NVAL`. Safe: the model stops where the spec gives the engine no step. -/
  | stepNotEnabled
deriving DecidableEq, Repr

/-- Why an action has no meaning. -/
inductive Refusal where
  /-- Raised by `exec` for an instruction that has no meaning in the model yet. Safe. -/
  | notModelled (mnemonic : String)
  /-- Raised by the launch step when `INLEN > 2^64 - 33`: such a launch is outside the spec (70_reset_and_hazards.md
  R224; 93_implementation_defined.md U12). Safe. -/
  | launchOutsideSpec
  /-- Raised by a host access that breaks a duty while BUSY: a byte of `IN[0 .. INLEN + 32)` changed (R226) or a word of
  `OUT[0 .. NVAL)` written (R227). Safe. -/
  | hostDutyBroken
deriving DecidableEq, Repr

/-- Scratch at reset: unspecified in the spec (10_state.md R45), zero here (log entry 3). -/
def Scratch.zero : Scratch :=
  { h := 0, shape := 0, b := 0, bx := 0, nex := 0, nblk := 0, mode := 0
    acc := Vector.replicate 8 0, cnt := 0, sacc := 0, scnt := 0
    m := Vector.replicate 32 0, ex := Vector.replicate 320 0, idx := Vector.replicate 255 0
    v := Vector.replicate 256 0, len := 0, vp := 0, vi := 0 }

/-- The machine right after reset (10_state.md R45, 70_reset_and_hazards.md R220): STATE IDLE, every host register and
both cursors 0; memory with nothing listed. -/
def State.reset : State :=
  { runState := .idle, nval := 0, inlen := 0, consumed := 0, ecause := 0, eip := 0, eop := 0, einfo := 0
    ip := 0, op := 0, scratch := Scratch.zero, inMem := [], out := { cells := [], floods := [] }
    draws := 0, turns := [], hostData := 0 }

end Sys2Proof.Machine
end

