-- ==== Sys2Proof/Machine/Flags.lean ====
section
/-! DEFINITION. The engine has no flags (spec/10_state.md R26); here are the outcome fields the host reads: STATUS.STATE and the cause codes. -/

namespace Sys2Proof.Machine

/-- The two bits of `STATUS.STATE` (10_state.md R29). -/
def RunState.code : RunState → BitVec 2
  | .idle => 0
  | .busy => 1
  | .done => 2
  | .error => 3

/-- The `STATUS` register as read: bits 63:2 are 0 (10_state.md R29). -/
def State.statusWord (s : State) : Word64 := s.runState.code.setWidth 64

/-- The `ECAUSE` register as read: bits 63:3 are 0 (10_state.md R33). -/
def State.ecauseWord (s : State) : Word64 := s.ecause.setWidth 64

/-- A fault raised inside a block step, `raise F(info)` (00_scope.md R10, 60_exceptions.md R191 to R194). -/
inductive Raise where
  /-- `a` is the start address of the failing read (R191). -/
  | truncatedInput (a : Nat)
  /-- `info` is `b`, or `0x100 | bx` (R192). -/
  | invalidBitWidth (info : Nat)
  /-- `idx` is the index byte that is `>= n` (R193). -/
  | exceptionMismatch (idx : Nat)
  /-- `x` is the lead byte (R194). -/
  | invalidVBLead (x : Nat)
deriving DecidableEq, Repr

/-- The cause code (60_exceptions.md R195). -/
def Raise.code : Raise → BitVec 3
  | .truncatedInput _ => 1
  | .invalidBitWidth _ => 2
  | .exceptionMismatch _ => 3
  | .invalidVBLead _ => 4

/-- The information word (60_exceptions.md R195). -/
def Raise.info : Raise → Word64
  | .truncatedInput a => BitVec.ofNat 64 a
  | .invalidBitWidth w => BitVec.ofNat 64 w
  | .exceptionMismatch i => BitVec.ofNat 64 i
  | .invalidVBLead x => BitVec.ofNat 64 x

end Sys2Proof.Machine
end

