-- ==== Sys2Proof/WellFormed.lean ====
section
/-! DEFINITION. Which instruction terms the spec's encodings and operand ranges admit. -/

namespace Sys2Proof

/-- A legal width, `0 <= b <= BMAX = 32` (00_scope.md R3, 30_encoding.md R81). -/
def widthOk (b : BitVec 6) : Bool := decide (b.toNat ≤ 32)

/-- The operand ranges: a legal width in the block instructions and the unpackers (R81, R110, R120), an illegal
width in an illegal header (R93), the lead-byte ranges of 30_encoding.md R89 and R95, at most 256 values for
UNPACK.S (R110) and at most 255 for VBDEC (R130). -/
def Instr.wf : Instr → Bool
  | .bp b => widthOk b
  | .bpvx b => widthOk b
  | .bpbx b => widthOk b
  | .const b => widthOk b
  | .illegalHeader h => !widthOk (h.extractLsb' 0 6)
  | .vb1 x => decide (x.toNat ≤ 176)
  | .vb2 x => decide (177 ≤ x.toNat) && decide (x.toNat ≤ 240)
  | .vb3 x => decide (241 ≤ x.toNat) && decide (x.toNat ≤ 248)
  | .vb4 => true
  | .vb5 => true
  | .reservedVbLead x => decide (251 ≤ x.toNat)
  | .vbraw => true
  | .unpackS _ n b => decide (n.toNat ≤ 256) && widthOk b
  | .unpackV _ b => widthOk b
  | .vbdec _ n => decide (n.toNat ≤ 255)
  | .launch => true
  | .stepV => true
  | .stepS => true
  | .stepDone => true

end Sys2Proof
end

