-- ==== Sys2Proof/Decode.lean ====
section
/-! DEFINITION. The decoder, total on any bytes and rejecting by name, and the encoder. -/

namespace Sys2Proof

/-- Why bytes do not decode. Every byte value selects exactly one row in each context (30_encoding.md R97), so
only an empty input is rejected. -/
inductive DecodeError where
  | endOfInput
deriving DecidableEq, Repr

/-- `SHAPE = H[7:6]` (30_encoding.md R81, R90). -/
def headerShape (h : Byte) : BitVec 2 := h.extractLsb' 6 2

/-- `B = H[5:0]` (30_encoding.md R81, R90). -/
def headerWidth (h : Byte) : BitVec 6 := h.extractLsb' 0 6

/-- The header byte with given shape and width fields (30_encoding.md R81). -/
def headerByte (shape : BitVec 2) (b : BitVec 6) : Byte := shape ++ b

/-- A byte as a block header (30_encoding.md R82, R93, R97; 43_pfor_block.md R150): the width is checked first, in
every shape. -/
def decodeHeader (h : Byte) : Instr :=
  let b := headerWidth h
  if 32 < b.toNat then .illegalHeader h
  else if headerShape h = 0 then .bp b
  else if headerShape h = 1 then .bpvx b
  else if headerShape h = 2 then .bpbx b
  else .const b

/-- A byte as a lead byte, compared with the range ends in the order of 30_encoding.md R97. -/
def decodeVbLead (x : Byte) : Instr :=
  if x.toNat ≤ 176 then .vb1 x
  else if x.toNat ≤ 240 then .vb2 x
  else if x.toNat ≤ 248 then .vb3 x
  else if x.toNat = 249 then .vb4
  else if x.toNat = 250 then .vb5
  else .reservedVbLead x

/-- A byte as the first byte of a VB run: the sentinel, or a lead byte (30_encoding.md R88, R97). -/
def decodeRunFirst (x : Byte) : Instr :=
  if x.toNat = 255 then .vbraw else decodeVbLead x

/-- One opcode byte in its context. -/
def decodeByte : Space → Byte → Instr
  | .header => decodeHeader
  | .runFirst => decodeRunFirst
  | .vbLead => decodeVbLead

/-- The decoder: the instruction at the head of the bytes, and the bytes after its opcode byte. -/
def decode (sp : Space) : List Byte → Except DecodeError (Instr × List Byte)
  | [] => .error .endOfInput
  | x :: rest => .ok (decodeByte sp x, rest)

/-- The contexts an encoded instruction can stand in: a codeword also at the first byte of a run, 255 there being the sentinel
(30_encoding.md R88, R95, R97). The units and the sequencer steps have none. -/
def Instr.spaces : Instr → List Space
  | .bp _ | .bpvx _ | .bpbx _ | .const _ | .illegalHeader _ => [.header]
  | .vb1 _ | .vb2 _ | .vb3 _ | .vb4 | .vb5 => [.runFirst, .vbLead]
  | .reservedVbLead x => if x.toNat = 255 then [.vbLead] else [.runFirst, .vbLead]
  | .vbraw => [.runFirst]
  | .unpackS _ _ _ | .unpackV _ _ | .vbdec _ _ | .launch | .stepV | .stepS | .stepDone => []

/-- The table's mnemonic of an instruction. -/
def Instr.mnemonic : Instr → String
  | .bp _ => "BP"
  | .bpvx _ => "BPVX"
  | .bpbx _ => "BPBX"
  | .const _ => "CONST"
  | .illegalHeader _ => "illegal_header"
  | .vb1 _ => "VB1"
  | .vb2 _ => "VB2"
  | .vb3 _ => "VB3"
  | .vb4 => "VB4"
  | .vb5 => "VB5"
  | .reservedVbLead _ => "reserved_VB_lead"
  | .vbraw => "VBRAW"
  | .unpackS _ _ _ => "UNPACK.S"
  | .unpackV _ _ => "UNPACK.V"
  | .vbdec _ _ => "VBDEC"
  | .launch => "LAUNCH"
  | .stepV => "STEP.V"
  | .stepS => "STEP.S"
  | .stepDone => "STEP.DONE"

/-- A row of spec/opcode_table.json: a byte `x` in one of its contexts selects it when `x & mask = value` (30_encoding.md
R97). The rows of the lead bytes hold for the first byte of a run too, as a first codeword. -/
structure TableRow where
  mnemonic : String
  spaces : List Space
  mask : Byte
  value : Byte
deriving DecidableEq, Repr

/-- Does a byte in a context select a row. -/
def TableRow.selects (r : TableRow) (sp : Space) (x : Byte) : Bool :=
  decide (sp ∈ r.spaces) && decide (x &&& r.mask = r.value)

/-- The rows of spec/opcode_table.json, block headers. -/
def headerRows : List TableRow := [
  ⟨"BP", [.header], 0xE0, 0x00⟩,
  ⟨"BP", [.header], 0xFF, 0x20⟩,
  ⟨"BPVX", [.header], 0xE0, 0x40⟩,
  ⟨"BPVX", [.header], 0xFF, 0x60⟩,
  ⟨"BPBX", [.header], 0xE0, 0x80⟩,
  ⟨"BPBX", [.header], 0xFF, 0xA0⟩,
  ⟨"CONST", [.header], 0xE0, 0xC0⟩,
  ⟨"CONST", [.header], 0xFF, 0xE0⟩,
  ⟨"illegal_header", [.header], 0x3F, 0x21⟩,
  ⟨"illegal_header", [.header], 0x3E, 0x22⟩,
  ⟨"illegal_header", [.header], 0x3C, 0x24⟩,
  ⟨"illegal_header", [.header], 0x38, 0x28⟩,
  ⟨"illegal_header", [.header], 0x30, 0x30⟩]

/-- The rows of spec/opcode_table.json, VB bytes. -/
def vbRows : List TableRow := [
  ⟨"VB1", [.runFirst, .vbLead], 0x80, 0x00⟩,
  ⟨"VB1", [.runFirst, .vbLead], 0xE0, 0x80⟩,
  ⟨"VB1", [.runFirst, .vbLead], 0xF0, 0xA0⟩,
  ⟨"VB1", [.runFirst, .vbLead], 0xFF, 0xB0⟩,
  ⟨"VB2", [.runFirst, .vbLead], 0xFF, 0xB1⟩,
  ⟨"VB2", [.runFirst, .vbLead], 0xFE, 0xB2⟩,
  ⟨"VB2", [.runFirst, .vbLead], 0xFC, 0xB4⟩,
  ⟨"VB2", [.runFirst, .vbLead], 0xF8, 0xB8⟩,
  ⟨"VB2", [.runFirst, .vbLead], 0xE0, 0xC0⟩,
  ⟨"VB2", [.runFirst, .vbLead], 0xF0, 0xE0⟩,
  ⟨"VB2", [.runFirst, .vbLead], 0xFF, 0xF0⟩,
  ⟨"VB3", [.runFirst, .vbLead], 0xFF, 0xF1⟩,
  ⟨"VB3", [.runFirst, .vbLead], 0xFE, 0xF2⟩,
  ⟨"VB3", [.runFirst, .vbLead], 0xFC, 0xF4⟩,
  ⟨"VB3", [.runFirst, .vbLead], 0xFF, 0xF8⟩,
  ⟨"VB4", [.runFirst, .vbLead], 0xFF, 0xF9⟩,
  ⟨"VB5", [.runFirst, .vbLead], 0xFF, 0xFA⟩,
  ⟨"reserved_VB_lead", [.runFirst, .vbLead], 0xFF, 0xFB⟩,
  ⟨"reserved_VB_lead", [.runFirst, .vbLead], 0xFE, 0xFC⟩,
  ⟨"reserved_VB_lead", [.runFirst, .vbLead], 0xFF, 0xFE⟩,
  ⟨"VBRAW", [.runFirst], 0xFF, 0xFF⟩,
  ⟨"reserved_VB_lead", [.vbLead], 0xFF, 0xFF⟩]

/-- The encoded rows of spec/opcode_table.json. -/
def tableRows : List TableRow := headerRows ++ vbRows

/-- The encoder: the opcode byte of an instruction, from the tables of 30_encoding.md R82 and R89. -/
def encode : Instr → List Byte
  | .bp b => [headerByte 0 b]
  | .bpvx b => [headerByte 1 b]
  | .bpbx b => [headerByte 2 b]
  | .const b => [headerByte 3 b]
  | .illegalHeader h => [h]
  | .vb1 x => [x]
  | .vb2 x => [x]
  | .vb3 x => [x]
  | .vb4 => [0xF9]
  | .vb5 => [0xFA]
  | .reservedVbLead x => [x]
  | .vbraw => [0xFF]
  | .unpackS _ _ _ | .unpackV _ _ | .vbdec _ _ | .launch | .stepV | .stepS | .stepDone => []

/-- The low `k` bytes of `v`, least significant first (20_memory.md R50). -/
def leBytes : Nat → Nat → List Byte
  | 0, _ => []
  | k + 1, v => BitVec.ofNat 8 v :: leBytes k (v / 256)

/-- The canonical codeword of a value: the shortest form that holds it (42_vbdec.md R138; the formulas of
30_encoding.md R89 solved for the bytes). -/
def encodeVb (e : Word32) : List Byte :=
  let v := e.toNat
  if v ≤ 176 then leBytes 1 v
  else if v ≤ 16560 then BitVec.ofNat 8 (177 + (v - 177) / 256) :: leBytes 1 (v - 177)
  else if v ≤ 540848 then BitVec.ofNat 8 (241 + (v - 16561) / 65536) :: leBytes 2 (v - 16561)
  else if v ≤ 16777215 then 0xF9 :: leBytes 3 v
  else 0xFA :: leBytes 4 v

/-- The canonical codewords of a run, back to back (30_encoding.md R88). -/
def encodeVbRun (es : List Word32) : List Byte := es.flatMap encodeVb

/-- The raw form of a run: the sentinel and the words, little-endian (30_encoding.md R88). -/
def encodeVbRaw (es : List Word32) : List Byte := 0xFF :: es.flatMap fun e => leBytes 4 e.toNat

/-- The bytes of a table word of `nbits` bits, the first byte the least significant. -/
def tableBytes (nbits w : Nat) : List Byte := leBytes (nbits / 8) w

/-- The instruction the decoder reads from a table word in the context in which the engine fetches: the block
header at `IP`. A word of no bits is no instruction. The other two contexts exist only inside a VB run (30_encoding.md
R92), where `decode .runFirst` and `decode .vbLead` read them (log entry 13). -/
def decodeTableWord (nbits w : Nat) : Option Instr :=
  match decode .header (tableBytes nbits w) with
  | .ok (i, _) => some i
  | .error _ => none

end Sys2Proof
end

