-- ==== Sys2Proof/Machine/Operands.lean ====
section
/-! DEFINITION. Operand arithmetic: ceilings, masks, byte order, the value count and mode of a block, bitmap positions, the patch. -/

namespace Sys2Proof.Machine

/-- `cdiv(a, d)`, the ceiling of `a / d` (00_scope.md R7). -/
def cdiv (a d : Nat) : Nat := (a + d - 1) / d

/-- `mask(w) = 2^w - 1` (00_scope.md R7). -/
def mask (w : Nat) : Nat := 2 ^ w - 1

/-- `le(bytes)`, the little-endian value of a byte sequence (00_scope.md R7, 20_memory.md R50). -/
def le : List Byte → Nat
  | [] => 0
  | b :: rest => b.toNat + 256 * le rest

/-- The values that remain, `NVAL - OP` (10_state.md R24). -/
def State.remaining (s : State) : Nat := s.nval.toNat - s.op.toNat

/-- Mode V while at least 256 values remain, else mode S (30_encoding.md R83). -/
def State.blockMode (s : State) : Mode := if 256 ≤ s.remaining then .V else .S

/-- `NBLK`, 256 in mode V and what remains in mode S (10_state.md R22). -/
def State.blockCount (s : State) : Nat := if 256 ≤ s.remaining then 256 else s.remaining

/-- Bit `i` of a bitmap value read little-endian (20_memory.md R52). -/
def bitmapBit (m i : Nat) : Bool := m.testBit i

/-- The ascending list of set positions among the first `n` (43_pfor_block.md R155). -/
def bitmapPositions (m n : Nat) : List Nat := (List.range n).filter (bitmapBit m)

/-- `patch(ex, b) = trunc32(ex << b)` (43_pfor_block.md R157); 0 when `b = 32`. -/
def patch (ex : Word32) (b : Nat) : Word32 := BitVec.ofNat 32 (ex.toNat * 2 ^ b)

end Sys2Proof.Machine
end

