-- ==== Sys2Proof/Machine/Ops.lean ====
section
/-! DEFINITION. The named operations: both memories, MemRead, taking a fault, the launch step, committing a block, and the shared shape of block steps and in-block steps. -/

namespace Sys2Proof.Machine

/-- The value listed at `k`. -/
def cellGet {α : Type} (k : Nat) : List (Nat × α) → Option α
  | [] => none
  | (a, v) :: rest => if a = k then some v else cellGet k rest

/-- List `v` at `k`, keys rising. -/
def cellPut {α : Type} (k : Nat) (v : α) : List (Nat × α) → List (Nat × α)
  | [] => [(k, v)]
  | (a, w) :: rest =>
    if a < k then (a, w) :: cellPut k v rest
    else if a = k then (k, v) :: rest
    else (k, v) :: (a, w) :: rest

/-- Take `k` off the list. -/
def cellDel {α : Type} (k : Nat) (l : List (Nat × α)) : List (Nat × α) := l.filter fun c => c.1 ≠ k

/-- Keys strictly rising. -/
abbrev CellsRising {α : Type} (l : List (Nat × α)) : Prop := l.Pairwise fun c d => c.1 < d.1

/-- What an unlisted byte of `IN` reads as: the spec gives memory no contents (10_state.md R45). Log entry 1. -/
def unlistedIn : Byte := 0

/-- The byte of `IN` at an address. -/
def readIn (m : List Host.Cell) (a : Nat) : Byte := (cellGet a m).getD unlistedIn

/-- Place a byte in `IN`, keeping the canonical form. -/
def writeIn (m : List Host.Cell) (a : Nat) (v : Byte) : List Host.Cell :=
  if v = unlistedIn then cellDel a m else cellPut a v m

/-- The canonical form of `IN`: addresses strictly rising, no entry equal to what an unlisted address reads as. -/
abbrev inWf (m : List Host.Cell) : Prop := CellsRising m ∧ ∀ c ∈ m, c.2 ≠ unlistedIn

/-- What an unlisted word of `OUT` outside every unspecified range reads as. Log entry 2. -/
def unlistedOut : Word32 := 0

/-- Does an unspecified range cover index `i`. -/
def OutMem.flooded (o : OutMem) (i : Nat) : Bool := o.floods.any fun f => decide (i < f.limit)

/-- The word of `OUT` at an index: the word written, else the free value of the newest unspecified range that covers it
(60_exceptions.md R196), else the unlisted word. -/
def OutMem.read (o : OutMem) (i : Nat) : Word32 :=
  match cellGet i o.cells with
  | some v => v
  | none =>
    match o.floods.find? fun f => decide (i < f.limit) with
    | some f => Config.freeBits 32 f.draw i
    | none => unlistedOut

/-- `OUT[i] <- v` (00_scope.md R9), keeping the canonical form. -/
def OutMem.write (o : OutMem) (i : Nat) (v : Word32) : OutMem :=
  if v = unlistedOut ∧ o.flooded i = false then { o with cells := cellDel i o.cells }
  else { o with cells := cellPut i v o.cells }

/-- `OUT[i], OUT[i+1], ... <- vs` (43_pfor_block.md R159). -/
def OutMem.writeMany (o : OutMem) (i : Nat) : List Word32 → OutMem
  | [] => o
  | v :: vs => (o.write i v).writeMany (i + 1) vs

/-- `OUT[0 .. limit) <- unspecified`, by free values of one draw (60_exceptions.md R196). -/
def OutMem.flood (o : OutMem) (limit draw : Nat) : OutMem :=
  if limit = 0 then o
  else { cells := o.cells.filter fun c => decide (limit ≤ c.1)
         floods := ⟨limit, draw⟩ :: o.floods.filter fun f => decide (limit < f.limit) }

/-- The canonical form of `OUT`: indices strictly rising, no entry equal to the unlisted word outside the unspecified
ranges, and those ranges not empty and strictly longer the older they are. -/
abbrev OutMem.wf (o : OutMem) : Prop :=
  CellsRising o.cells ∧ (∀ c ∈ o.cells, c.2 ≠ unlistedOut ∨ o.flooded c.1 = true) ∧
    (o.floods.Pairwise fun f g => f.limit < g.limit) ∧ ∀ f ∈ o.floods, 0 < f.limit

/-- Both memories in canonical form. -/
abbrev Memory.wf (s : State) : Prop := inWf s.inMem ∧ s.out.wf

/-- What a unit sees of the launch: the bytes of `IN` and the payload length (10_state.md R20). -/
structure Input where
  bytes : List Host.Cell
  len : Nat
deriving DecidableEq, Repr

/-- The launch arguments a unit reads. -/
def State.input (s : State) : Input := { bytes := s.inMem, len := s.inlen.toNat }

/-- The `k` bytes at `a`, ascending. -/
def Input.bytesAt (i : Input) (a k : Nat) : List Byte := (List.range k).map fun j => readIn i.bytes (a + j)

/-- `MemRead(a, k)` (00_scope.md R8): nothing for `k = 0`; TruncatedInput past `INLEN + 32`; else little-endian. -/
def memRead (i : Input) (a k : Nat) : Except Raise Nat :=
  if k = 0 then .ok 0
  else if i.len + 32 < a + k then .error (.truncatedInput a)
  else .ok (le (i.bytesAt a k))

/-- Scratch as a draw: every register a free value of its own (10_state.md R25; 93_implementation_defined.md U10). Log
entry 4. -/
def freeScratch (draw : Nat) : Scratch :=
  { h := Config.freeBits 8 draw 1, shape := Config.freeBits 2 draw 2, b := Config.freeBits 6 draw 3
    bx := Config.freeBits 8 draw 4, nex := Config.freeBits 9 draw 5, nblk := Config.freeBits 9 draw 6
    mode := Config.freeBits 1 draw 7, cnt := Config.freeBits 7 draw 8, sacc := Config.freeBits 64 draw 9
    scnt := Config.freeBits 6 draw 10, len := Config.freeBits 64 draw 11, vp := Config.freeBits 64 draw 12
    vi := Config.freeBits 9 draw 13
    acc := Vector.ofFn fun i => Config.freeBits 64 draw (100 + i.val)
    m := Vector.ofFn fun i => Config.freeBits 8 draw (200 + i.val)
    idx := Vector.ofFn fun i => Config.freeBits 8 draw (300 + i.val)
    v := Vector.ofFn fun i => Config.freeBits 32 draw (1000 + i.val)
    ex := Vector.ofFn fun i => Config.freeBits 32 draw (2000 + i.val) }

/-- The draw a state makes (00_scope.md R11). Log entry 6. -/
def State.draw (s : State) : Nat := Config.drawKey s

/-- Scratch becomes unspecified. -/
def State.forgetScratch (s : State) : State :=
  { s with scratch := freeScratch s.draw, draws := s.draws + 1 }

/-- What a fault writes (60_exceptions.md R196): cause, block-start cursors and information word recorded; CONSUMED and all of
`OUT[0 .. NVAL)` unspecified; STATE becomes ERROR; `IP`, `OP`, `NVAL`, `INLEN`, `IN` unchanged. -/
def State.recordFault (s : State) (r : Raise) : State :=
  { s with ecause := r.code, eip := s.ip, eop := s.op, einfo := r.info
           consumed := Config.freeBits 64 s.draw 0
           out := s.out.flood s.nval.toNat s.draw
           draws := s.draws + 1
           runState := .error }

/-- FAULT ENTRY (60_exceptions.md R196); the scratch is unspecified after a fault too (10_state.md R25), by a draw of its own. -/
def State.takeFault (s : State) (r : Raise) : State := (s.recordFault r).forgetScratch

/-- LAUNCH's state change (44_stream_driver.md R180), the only way out of a fault but reset (60_exceptions.md R199). -/
def State.enterLaunch (s : State) : State :=
  { s with ip := 0, op := 0, ecause := 0, eip := 0, eop := 0, einfo := 0, runState := .busy }

/-- The write of START = 1: ignored while BUSY (10_state.md R28), outside the spec for a payload length that does not leave
room for the padding (70_reset_and_hazards.md R224), else the launch step. -/
def State.startLaunch (s : State) : Host.Outcome State Fault Refusal :=
  if s.runState = .busy then .next s
  else if Config.maxInlen < s.inlen.toNat then .refused .launchOutsideSpec
  else .next s.enterLaunch

/-- What a reset writes (70_reset_and_hazards.md R220, R221): host registers and cursors 0, STATE IDLE; a run that was BUSY leaves
`OUT[0 .. NVAL)` unspecified; memory is not touched otherwise. -/
def State.resetRegs (s : State) : State :=
  { s with runState := .idle, nval := 0, inlen := 0, consumed := 0, ecause := 0, eip := 0, eop := 0, einfo := 0
           ip := 0, op := 0
           out := if s.runState = .busy then s.out.flood s.nval.toNat s.draw else s.out
           draws := s.draws + 1 }

/-- Reset; the scratch is unspecified after it (10_state.md R45). -/
def State.doReset (s : State) : State := s.resetRegs.forgetScratch

/-- A block that decoded: the values placed in `OUT` from `OP` on, both cursors advanced (44_stream_driver.md R181, R182;
43_pfor_block.md R159). -/
def State.advance (s : State) (vs : List Word32) (len n : Nat) : State :=
  { s with out := s.out.writeMany s.op.toNat vs
           ip := BitVec.ofNat 64 (s.ip.toNat + len)
           op := BitVec.ofNat 64 (s.op.toNat + n) }

/-- The end of a block step that decoded; the scratch is dead after it (10_state.md R25). -/
def State.commitBlock (s : State) (vs : List Word32) (len n : Nat) : State := (s.advance vs len n).forgetScratch

/-- One block step with a given body (44_stream_driver.md R181, R182): enabled when BUSY with values remaining; the header
byte is fetched (43_pfor_block.md R150), the body runs on (input, header address, count, mode), and the step commits or takes the
fault the body raised. -/
def blockStep (s : State) (body : Input → Nat → Nat → Mode → Except Raise (List Word32 × Nat)) :
    Host.Outcome State Fault Refusal :=
  if s.runState = .busy ∧ 0 < s.remaining then
    .next <|
      match memRead s.input s.ip.toNat 1 with
      | .error r => s.takeFault r
      | .ok _ =>
        match body s.input s.ip.toNat s.blockCount s.blockMode with
        | .error r => s.takeFault r
        | .ok (vs, len) => s.commitBlock vs len s.blockCount
  else .fault .stepNotEnabled

/-- One unit or codeword run on its own inside a launch: it raises, or updates the scratch (log entry 15). -/
def scratchStep (s : State) (body : Input → Scratch → Except Raise Scratch) :
    Host.Outcome State Fault Refusal :=
  if s.runState = .busy then
    .next <|
      match body s.input s.scratch with
      | .error r => s.takeFault r
      | .ok sc => { s with scratch := sc }
  else .fault .stepNotEnabled

/-- Overwrite the first entries of a register array. -/
def fill {α : Type} {n : Nat} (v : Vector α n) (l : List α) : Vector α n :=
  Vector.ofFn fun i => l.getD i.val v[i.val]

end Sys2Proof.Machine
end

