-- ==== Sys2Proof/Machine/Unpack.lean ====
section
/-! DEFINITION. UNPACK.S and UNPACK.V: the functional definitions, the operational ones beside them, and the meanings of the two units. -/

namespace Sys2Proof.Machine

/-- Value `k` of width `b` of a bit-stream held in an integer: bits `k*b .. k*b + b - 1` (40_bitunpack_scalar.md R110). -/
def streamValue (stream b k : Nat) : Word32 := BitVec.ofNat 32 ((stream >>> (k * b)) &&& mask b)

/-- UNPACK.S, functional (40_bitunpack_scalar.md R110). -/
def unpackS (i : Input) (a n b : Nat) : Except Raise (List Word32 × Nat) := do
  let len := cdiv (n * b) 8
  let stream ← memRead i a len
  .ok ((List.range n).map (streamValue stream b), len)

/-- The word `W[j][L]` of UNPACK.V (41_bitunpack_256v.md R120). -/
def laneWord (i : Input) (a j lane : Nat) : Nat := le (i.bytesAt (a + 32 * j + 4 * lane) 4)

/-- The bit-stream `T[L]` of a lane: its `b` words in group order (41_bitunpack_256v.md R120). -/
def laneStream (i : Input) (a lane : Nat) : Nat → Nat
  | 0 => 0
  | j + 1 => laneStream i a lane j ||| (laneWord i a j lane <<< (32 * j))

/-- UNPACK.V, functional (41_bitunpack_256v.md R120): position `8*k + L` is value `k` of lane `L`. -/
def unpackV (i : Input) (a b : Nat) : Except Raise (List Word32 × Nat) := do
  let len := 32 * b
  let _ ← memRead i a len
  let lanes := (List.range 8).map fun lane => laneStream i a lane b
  .ok ((List.range 256).map fun p => streamValue (lanes.getD (p % 8) 0) b (p / 8), len)

/-- The choice of unpacker for a main payload (43_pfor_block.md R151). -/
def unpackM (i : Input) (q n b : Nat) : Mode → Except Raise (List Word32 × Nat)
  | .V => unpackV i q b
  | .S => unpackS i q n b

/-- The accumulator of the operational UNPACK.S: `SACC`, `SCNT` and the fetch address (40_bitunpack_scalar.md R111). -/
structure ScalarAcc where
  sacc : Word64
  scnt : Nat
  p : Nat
deriving DecidableEq, Repr

/-- `while SCNT < b`: shift in the next byte above the valid bits (40_bitunpack_scalar.md R111). Each pass adds 8 bits, so
`b` passes are enough. -/
def scalarRefill (i : Input) (b : Nat) : Nat → ScalarAcc → Except Raise ScalarAcc
  | 0, st => .ok st
  | fuel + 1, st =>
    if st.scnt < b then do
      let x ← memRead i st.p 1
      scalarRefill i b fuel ⟨st.sacc ||| (BitVec.ofNat 64 x <<< st.scnt), st.scnt + 8, st.p + 1⟩
    else .ok st

/-- The output loop of the operational UNPACK.S (40_bitunpack_scalar.md R111). -/
def scalarLoop (i : Input) (b : Nat) : Nat → ScalarAcc → Except Raise (List Word32 × ScalarAcc)
  | 0, st => .ok ([], st)
  | n + 1, st => do
    let full ← scalarRefill i b b st
    let (vs, last) ← scalarLoop i b n ⟨full.sacc >>> b, full.scnt - b, full.p⟩
    .ok (BitVec.ofNat 32 (full.sacc.toNat &&& mask b) :: vs, last)

/-- UNPACK.S, operational (40_bitunpack_scalar.md R111): the values and the accumulator as it is left. -/
def unpackSOp (i : Input) (a n b : Nat) : Except Raise (List Word32 × ScalarAcc) :=
  scalarLoop i b n ⟨0, 0, a⟩

/-- The accumulators of the operational UNPACK.V: `ACC`, the shared `CNT`, the fetch address and the next output position
(41_bitunpack_256v.md R121). -/
structure LaneAcc where
  acc : Vector Word64 8
  cnt : Nat
  p : Nat
  o : Nat
deriving DecidableEq, Repr

/-- `k` consecutive 4-byte reads. -/
def readWords (i : Input) (p : Nat) : Nat → Except Raise (List Nat)
  | 0 => .ok []
  | k + 1 => do
    let w ← memRead i p 4
    let ws ← readWords i (p + 4) k
    .ok (w :: ws)

/-- Refill all eight accumulators by one 32-byte group (41_bitunpack_256v.md R121). -/
def laneRefill (i : Input) (st : LaneAcc) : Except Raise LaneAcc := do
  let ws ← readWords i st.p 8
  .ok { st with
    acc := Vector.ofFn fun lane => st.acc[lane.val] ||| (BitVec.ofNat 64 (ws.getD lane.val 0) <<< st.cnt)
    cnt := st.cnt + 32
    p := st.p + 32 }

/-- `while CNT >= b and o < 256`: emit one value per lane (41_bitunpack_256v.md R121). -/
def laneDrain (b : Nat) : Nat → LaneAcc → List Word32 × LaneAcc
  | 0, st => ([], st)
  | fuel + 1, st =>
    if b ≤ st.cnt ∧ st.o < 256 then
      let r := laneDrain b fuel { st with
        acc := st.acc.map fun (x : Word64) => x >>> b
        cnt := st.cnt - b
        o := st.o + 8 }
      (st.acc.toList.map (fun x => BitVec.ofNat 32 (x.toNat &&& mask b)) ++ r.1, r.2)
    else ([], st)

/-- `while o < 256`: refill, then drain (41_bitunpack_256v.md R121). A refill holds at least one group of outputs, so 32
passes are enough. -/
def laneLoop (i : Input) (b : Nat) : Nat → LaneAcc → Except Raise (List Word32 × LaneAcc)
  | 0, st => .ok ([], st)
  | fuel + 1, st =>
    if st.o < 256 then do
      let full ← laneRefill i st
      let (vs, drained) := laneDrain b 32 full
      let (ws, last) ← laneLoop i b fuel drained
      .ok (vs ++ ws, last)
    else .ok ([], st)

/-- UNPACK.V, operational (41_bitunpack_256v.md R121): the values and the accumulators as they are left. -/
def unpackVOp (i : Input) (a b : Nat) : Except Raise (List Word32 × LaneAcc) :=
  let start : LaneAcc := ⟨Vector.replicate 8 0, 0, a, 0⟩
  if b = 0 then .ok (List.replicate 256 0, start) else laneLoop i b 32 start

/-- UNPACK.S as a step of its own (40_bitunpack_scalar.md R110): the values and the length returned, `SACC` and `SCNT` as the
operational form leaves them, with the unused high bits of the last byte (R111, R112). Log entries 15 and 19. -/
def execUnpackS (a : Word64) (n : BitVec 9) (b : BitVec 6) (s : State) : Host.Outcome State Fault Refusal :=
  scratchStep s fun i sc => do
    let (vs, len) ← unpackS i a.toNat n.toNat b.toNat
    let stream ← memRead i a.toNat len
    .ok { sc with
      v := fill sc.v vs
      len := BitVec.ofNat 64 len
      sacc := BitVec.ofNat 64 (stream >>> (n.toNat * b.toNat))
      scnt := BitVec.ofNat 6 (8 * len - n.toNat * b.toNat) }

/-- UNPACK.V as a step of its own (41_bitunpack_256v.md R120): the values and the length returned; `ACC` and `CNT` are 0, nothing
is left over (R121). Log entries 15 and 19. -/
def execUnpackV (a : Word64) (b : BitVec 6) (s : State) : Host.Outcome State Fault Refusal :=
  scratchStep s fun i sc => do
    let (vs, len) ← unpackV i a.toNat b.toNat
    .ok { sc with
      v := fill sc.v vs
      len := BitVec.ofNat 64 len
      acc := Vector.replicate 8 0
      cnt := 0 }

end Sys2Proof.Machine
end

