-- ==== Sys2Proof/Machine/Vb.lean ====
section
/-! DEFINITION. VBDEC, its codewords VB1 to VB5, the raw form VBRAW and the reserved lead bytes, and their meanings. -/

namespace Sys2Proof.Machine

/-- VB1 (42_vbdec.md R132): the value is the lead byte. Each codeword answers its value and its consumed length. -/
def vb1 (x : Byte) : Word32 × Nat := (x.setWidth 32, 1)

/-- VB2 (42_vbdec.md R133). -/
def vb2 (i : Input) (p : Nat) (x : Byte) : Except Raise (Word32 × Nat) := do
  let b1 ← memRead i (p + 1) 1
  .ok (BitVec.ofNat 32 (((x.toNat - 177) <<< 8) + b1 + 177), 2)

/-- VB3 (42_vbdec.md R134). -/
def vb3 (i : Input) (p : Nat) (x : Byte) : Except Raise (Word32 × Nat) := do
  let t ← memRead i (p + 1) 2
  .ok (BitVec.ofNat 32 (((x.toNat - 241) <<< 16) + t + 16561), 3)

/-- VB4 (42_vbdec.md R135): four bytes fetched, three consumed. -/
def vb4 (i : Input) (p : Nat) : Except Raise (Word32 × Nat) := do
  let w ← memRead i (p + 1) 4
  .ok (BitVec.ofNat 32 (w &&& 0x00FFFFFF), 4)

/-- VB5 (42_vbdec.md R136). -/
def vb5 (i : Input) (p : Nat) : Except Raise (Word32 × Nat) := do
  let w ← memRead i (p + 1) 4
  .ok (BitVec.ofNat 32 w, 5)

/-- One codeword whose lead byte `x` stands at `p`, by the range of `x` (42_vbdec.md R130, R137). -/
def codeword (i : Input) (p : Nat) (x : Byte) : Except Raise (Word32 × Nat) :=
  if x.toNat ≤ 176 then .ok (vb1 x)
  else if x.toNat ≤ 240 then vb2 i p x
  else if x.toNat ≤ 248 then vb3 i p x
  else if x.toNat = 249 then vb4 i p
  else if x.toNat = 250 then vb5 i p
  else .error (.invalidVBLead x.toNat)

/-- `k` codewords from `p` on: the values, and the address after the last (42_vbdec.md R130). -/
def codewords (i : Input) (p : Nat) : Nat → Except Raise (List Word32 × Nat)
  | 0 => .ok ([], p)
  | k + 1 => do
    let x ← memRead i p 1
    let (e, len) ← codeword i p (BitVec.ofNat 8 x)
    let (es, q) ← codewords i (p + len) k
    .ok (e :: es, q)

/-- VBRAW (42_vbdec.md R131): the sentinel at `a`, then `n` words read as one. -/
def vbraw (i : Input) (a n : Nat) : Except Raise (List Word32 × Nat) := do
  let r ← memRead i (a + 1) (4 * n)
  .ok ((List.range n).map fun k => BitVec.ofNat 32 ((r >>> (32 * k)) &&& 0xFFFFFFFF), 1 + 4 * n)

/-- VBDEC (42_vbdec.md R130), the sentinel tested once per run; for an empty run the test depends on the open parameter
(R139, log entry 7). -/
def vbdec (i : Input) (a n : Nat) : Except Raise (List Word32 × Nat) :=
  if n = 0 ∧ Config.vbdecEmptyChecksSentinel = false then .ok ([], 0)
  else do
    let x ← memRead i a 1
    if x = 0xFF then vbraw i a n
    else do
      let (es, q) ← codewords i a n
      .ok (es, q - a)

/-- Record one decoded value: `EX[i] <- e`, `i` and `p` advanced (42_vbdec.md R130; 10_state.md R41). A run has at most 255 values
(R130), so `i` never passes `EX` in one. For a codeword run on its own with `i` at 320 or above the spec states nothing: that the
value is then in no entry of `EX`, and that `i` is taken modulo 512, is a DESIGN CHOICE, log entry 26. -/
def Scratch.pushValue (sc : Scratch) (e : Word32) (len : Nat) : Scratch :=
  { sc with
    ex := sc.ex.setIfInBounds sc.vi.toNat e
    vi := sc.vi + 1
    vp := BitVec.ofNat 64 (sc.vp.toNat + len)
    len := BitVec.ofNat 64 len }

/-- Record a whole run: `EX[0 .. n) <- e`, `i = n`, `p` after the run (42_vbdec.md R130, R131; 10_state.md R41). A run of more than
320 values, which R130 rules out, leaves those past `EX` in no entry: a DESIGN CHOICE, log entry 26. -/
def Scratch.putRun (sc : Scratch) (a : Nat) (es : List Word32) (len : Nat) : Scratch :=
  { sc with
    ex := fill sc.ex es
    vi := BitVec.ofNat 9 es.length
    vp := BitVec.ofNat 64 (a + len)
    len := BitVec.ofNat 64 len }

/-- One codeword as a step of its own, its lead byte at `p = vp`: the lead byte is fetched, then the codeword decodes (42_vbdec.md
R130). Log entries 15 and 16. -/
def codewordStep (s : State) (body : Input → Nat → Except Raise (Word32 × Nat)) : Host.Outcome State Fault Refusal :=
  scratchStep s fun i sc => do
    let _ ← memRead i sc.vp.toNat 1
    let (e, len) ← body i sc.vp.toNat
    .ok (sc.pushValue e len)

/-- VB1 (42_vbdec.md R132). -/
def execVb1 (x : Byte) (s : State) : Host.Outcome State Fault Refusal := codewordStep s fun _ _ => .ok (vb1 x)

/-- VB2 (42_vbdec.md R133). -/
def execVb2 (x : Byte) (s : State) : Host.Outcome State Fault Refusal := codewordStep s fun i p => vb2 i p x

/-- VB3 (42_vbdec.md R134). -/
def execVb3 (x : Byte) (s : State) : Host.Outcome State Fault Refusal := codewordStep s fun i p => vb3 i p x

/-- VB4 (42_vbdec.md R135). -/
def execVb4 (s : State) : Host.Outcome State Fault Refusal := codewordStep s vb4

/-- VB5 (42_vbdec.md R136). -/
def execVb5 (s : State) : Host.Outcome State Fault Refusal := codewordStep s vb5

/-- A reserved lead byte takes InvalidVBLead (42_vbdec.md R137). -/
def execReservedVbLead (x : Byte) (s : State) : Host.Outcome State Fault Refusal :=
  codewordStep s fun _ _ => .error (.invalidVBLead x.toNat)

/-- VBRAW as a step of its own, the sentinel at `p = vp`, the count in `NEX` (42_vbdec.md R131; log entries 15 and 16). Where `NEX`
holds more than R130's 255 the run is as long as `NEX` says: a DESIGN CHOICE, log entry 26. -/
def execVbraw (s : State) : Host.Outcome State Fault Refusal :=
  scratchStep s fun i sc => do
    let _ ← memRead i sc.vp.toNat 1
    let (es, len) ← vbraw i sc.vp.toNat sc.nex.toNat
    .ok (sc.putRun sc.vp.toNat es len)

/-- VBDEC as a step of its own: the count goes to `NEX`, the values to `EX` (42_vbdec.md R130; 10_state.md R41). -/
def execVbdec (a : Word64) (n : BitVec 9) (s : State) : Host.Outcome State Fault Refusal :=
  scratchStep s fun i sc => do
    let (es, len) ← vbdec i a.toNat n.toNat
    .ok ({ sc with nex := n }.putRun a.toNat es len)

end Sys2Proof.Machine
end

