-- ==== Sys2Proof/Machine/Block.lean ====
section
/-! DEFINITION. The block decoder: BP, CONST, BPVX, BPBX, the exception overlay, and their meanings. -/

namespace Sys2Proof.Machine

/-- BP (43_pfor_block.md R152): `a` is the header's address; a body answers the block's values and consumed length. -/
def bp (i : Input) (a n : Nat) (m : Mode) (b : Nat) : Except Raise (List Word32 × Nat) := do
  let (v, lm) ← unpackM i (a + 1) n b m
  .ok (v, 1 + lm)

/-- CONST (43_pfor_block.md R153): the mask is skipped for `b = 32`. -/
def const (i : Input) (a n b : Nat) : Except Raise (List Word32 × Nat) := do
  let k := cdiv b 8
  let c ← memRead i (a + 1) k
  .ok (List.replicate n (BitVec.ofNat 32 (if b < 32 then c &&& mask b else c)), 1 + k)

/-- BPVX's overlay: indices in list order, each checked, the patch ORed in (43_pfor_block.md R154, R158). -/
def overlayOr (n b : Nat) : List (Word32 × Nat) → List Word32 → Except Raise (List Word32)
  | [], v => .ok v
  | (e, idx) :: rest, v =>
    if n ≤ idx then .error (.exceptionMismatch idx)
    else overlayOr n b rest (v.modify idx fun w => w ||| patch e b)

/-- BPVX (43_pfor_block.md R154): the index bytes are read as one before the first is checked. -/
def bpvx (i : Input) (a n : Nat) (m : Mode) (b : Nat) : Except Raise (List Word32 × Nat) := do
  let nex ← memRead i (a + 1) 1
  let (v, lm) ← unpackM i (a + 2) n b m
  let (e, lv) ← vbdec i (a + 2 + lm) nex
  let x ← memRead i (a + 2 + lm + lv) nex
  let idx := (List.range nex).map fun k => (x >>> (8 * k)) &&& 0xFF
  let w ← overlayOr n b (e.zip idx) v
  .ok (w, 2 + lm + lv + nex)

/-- BPBX's overlay: positions ascending, the patch added modulo 2^32 (43_pfor_block.md R155, R158). -/
def overlayAdd (b : Nat) : List (Word32 × Nat) → List Word32 → List Word32
  | [], v => v
  | (e, pos) :: rest, v => overlayAdd b rest (v.modify pos fun w => w + patch e b)

/-- BPBX (43_pfor_block.md R155, R156): the exception values are always in the scalar layout and come before the main
payload; bitmap bits at positions `>= n` are ignored. -/
def bpbx (i : Input) (a n : Nat) (m : Mode) (b : Nat) : Except Raise (List Word32 × Nat) := do
  let bx ← memRead i (a + 1) 1
  if 32 < bx then .error (.invalidBitWidth (0x100 ||| bx))
  else do
    let lb := cdiv n 8
    let bitmap ← memRead i (a + 2) lb
    let pos := bitmapPositions bitmap n
    let (e, lx) ← unpackS i (a + 2 + lb) pos.length bx
    let (v, lm) ← unpackM i (a + 2 + lb + lx) n b m
    .ok (overlayAdd b (e.zip pos) v, 2 + lb + lx + lm)

/-- BP as a block step. -/
def execBp (b : BitVec 6) (s : State) : Host.Outcome State Fault Refusal :=
  blockStep s fun i a n m => bp i a n m b.toNat

/-- BPVX as a block step. -/
def execBpvx (b : BitVec 6) (s : State) : Host.Outcome State Fault Refusal :=
  blockStep s fun i a n m => bpvx i a n m b.toNat

/-- BPBX as a block step. -/
def execBpbx (b : BitVec 6) (s : State) : Host.Outcome State Fault Refusal :=
  blockStep s fun i a n m => bpbx i a n m b.toNat

/-- CONST as a block step; the mode does not matter (43_pfor_block.md R153). -/
def execConst (b : BitVec 6) (s : State) : Host.Outcome State Fault Refusal :=
  blockStep s fun i a n _ => const i a n b.toNat

/-- An illegal header takes InvalidBitWidth before any further byte of the block is read (30_encoding.md R93,
43_pfor_block.md R150). -/
def execIllegalHeader (h : Byte) (s : State) : Host.Outcome State Fault Refusal :=
  blockStep s fun _ _ _ _ => .error (.invalidBitWidth (headerWidth h).toNat)

end Sys2Proof.Machine
end

