-- ==== Sys2Proof/Machine/Sequencer.lean ====
section
/-! DEFINITION. The sequencer steps LAUNCH, STEP.V, STEP.S, STEP.DONE, the host's accesses between them, and the whole run as one function. -/

namespace Sys2Proof.Machine

/-- BLOCK's dispatch on a fetched header byte (43_pfor_block.md R150). -/
def runHeader (h : Byte) (s : State) : Host.Outcome State Fault Refusal :=
  if 32 < (headerWidth h).toNat then execIllegalHeader h s
  else if headerShape h = 0 then execBp (headerWidth h) s
  else if headerShape h = 1 then execBpvx (headerWidth h) s
  else if headerShape h = 2 then execBpbx (headerWidth h) s
  else execConst (headerWidth h) s

/-- One block at `IP`: fetch the header byte, or take TruncatedInput, and dispatch (43_pfor_block.md R150). -/
def runBlock (s : State) : Host.Outcome State Fault Refusal :=
  match memRead s.input s.ip.toNat 1 with
  | .error r => .next (s.takeFault r)
  | .ok h => runHeader (BitVec.ofNat 8 h) s

/-- LAUNCH (44_stream_driver.md R180): the host's write of START = 1. -/
def execLaunch (s : State) : Host.Outcome State Fault Refusal := s.startLaunch

/-- STEP.V (44_stream_driver.md R181): enabled while at least 256 values remain. -/
def execStepV (s : State) : Host.Outcome State Fault Refusal :=
  if s.runState = .busy ∧ 256 ≤ s.remaining then runBlock s else .fault .stepNotEnabled

/-- STEP.S (44_stream_driver.md R182): enabled while 1 to 255 values remain. -/
def execStepS (s : State) : Host.Outcome State Fault Refusal :=
  if s.runState = .busy ∧ 0 < s.remaining ∧ s.remaining < 256 then runBlock s else .fault .stepNotEnabled

/-- STEP.DONE (44_stream_driver.md R183). -/
def execStepDone (s : State) : Host.Outcome State Fault Refusal :=
  if s.runState = .busy ∧ s.op = s.nval then .next { s with consumed := s.ip, runState := .done }
  else .fault .stepNotEnabled

/-- A host register as read by index (10_state.md R27 to R36); indices 9 and above read 0. -/
def State.readReg (s : State) : Nat → Word64
  | 1 => s.statusWord
  | 2 => s.nval
  | 3 => s.inlen
  | 4 => s.consumed
  | 5 => s.ecauseWord
  | 6 => s.eip
  | 7 => s.eop
  | 8 => s.einfo
  | _ => 0

/-- A host register written by index (10_state.md R27, R28, R30, R31, R37): START launches; `NVAL` and `INLEN` take all 64
bits unless BUSY; every other write is ignored. -/
def State.writeReg (s : State) (index : Nat) (v : Word64) : Host.Outcome State Fault Refusal :=
  if index = 0 then (if v.getLsbD 0 then s.startLaunch else .next s)
  else if s.runState = .busy then .next s
  else if index = 2 then .next { s with nval := v }
  else if index = 3 then .next { s with inlen := v }
  else .next s

/-- One access of the host (10_state.md R37; 70_reset_and_hazards.md R220 to R227). While BUSY a changed byte of
`IN[0 .. INLEN + 32)` or a written word of `OUT[0 .. NVAL)` breaks a duty, and a read word of that range is any value. -/
def hostAct (a : HostAccess) (s : State) : Host.Outcome State Fault Refusal :=
  match a with
  | .writeReg index v => s.writeReg index v
  | .readReg index => .next { s with hostData := s.readReg index }
  | .writeIn addr v =>
    if s.runState = .busy ∧ addr.toNat < s.inlen.toNat + 32 ∧ v ≠ readIn s.inMem addr.toNat then
      .refused .hostDutyBroken
    else .next { s with inMem := writeIn s.inMem addr.toNat v }
  | .writeOut index v =>
    if s.runState = .busy ∧ index.toNat < s.nval.toNat then .refused .hostDutyBroken
    else .next { s with out := s.out.write index.toNat v }
  | .readOut index =>
    if s.runState = .busy ∧ index.toNat < s.nval.toNat then
      .next { s with hostData := (Config.freeBits 32 s.draw index.toNat).setWidth 64, draws := s.draws + 1 }
    else .next { s with hostData := (s.out.read index.toNat).setWidth 64 }
  | .reset => .next s.doReset

/-- BLOCK as a function (43_pfor_block.md R150): the values and the consumed length of the block at `a`. -/
def block (i : Input) (a n : Nat) (m : Mode) : Except Raise (List Word32 × Nat) := do
  let x ← memRead i a 1
  let h : Byte := BitVec.ofNat 8 x
  let b := (headerWidth h).toNat
  if 32 < b then .error (.invalidBitWidth b)
  else if headerShape h = 0 then bp i a n m b
  else if headerShape h = 1 then bpvx i a n m b
  else if headerShape h = 2 then bpbx i a n m b
  else const i a n b

/-- A fault of the run as a function: the cause and the cursors at the faulting block (44_stream_driver.md R185). -/
structure RunFault where
  cause : Raise
  eip : Nat
  eop : Nat
deriving DecidableEq, Repr

/-- DECODE's loop from given cursors with `v` blocks of 256 values and a tail of `t` values to come (44_stream_driver.md R185). -/
def decodeFrom (i : Input) (ip op t : Nat) : Nat → Except RunFault (List Word32 × Nat)
  | 0 =>
    if t = 0 then .ok ([], ip)
    else
      match block i ip t .S with
      | .error r => .error ⟨r, ip, op⟩
      | .ok (v, len) => .ok (v, ip + len)
  | k + 1 =>
    match block i ip 256 .V with
    | .error r => .error ⟨r, ip, op⟩
    | .ok (v, len) =>
      match decodeFrom i (ip + len) (op + 256) t k with
      | .error f => .error f
      | .ok (vs, consumed) => .ok (v ++ vs, consumed)

/-- DECODE, the run as a function (44_stream_driver.md R185): the output values and `consumed`, or the fault. -/
def decodeRun (i : Input) (nval : Nat) : Except RunFault (List Word32 × Nat) :=
  decodeFrom i 0 0 (nval % 256) (nval / 256)

end Sys2Proof.Machine
end

