-- ==== Sys2Proof/Machine/Dispatch.lean ====
section
/-! DEFINITION. One arm per instruction. -/

namespace Sys2Proof.Machine

def exec (i : Instr) (s : State) : Host.Outcome State Fault Refusal :=
  match i with
  | .bp b => Sys2Proof.Machine.execBp b s
  | .bpvx b => Sys2Proof.Machine.execBpvx b s
  | .bpbx b => Sys2Proof.Machine.execBpbx b s
  | .const b => Sys2Proof.Machine.execConst b s
  | .illegalHeader h => Sys2Proof.Machine.execIllegalHeader h s
  | .vb1 x => Sys2Proof.Machine.execVb1 x s
  | .vb2 x => Sys2Proof.Machine.execVb2 x s
  | .vb3 x => Sys2Proof.Machine.execVb3 x s
  | .vb4 => Sys2Proof.Machine.execVb4 s
  | .vb5 => Sys2Proof.Machine.execVb5 s
  | .reservedVbLead x => Sys2Proof.Machine.execReservedVbLead x s
  | .vbraw => Sys2Proof.Machine.execVbraw s
  | .unpackS a n b => Sys2Proof.Machine.execUnpackS a n b s
  | .unpackV a b => Sys2Proof.Machine.execUnpackV a b s
  | .vbdec a n => Sys2Proof.Machine.execVbdec a n s
  | .launch => Sys2Proof.Machine.execLaunch s
  | .stepV => Sys2Proof.Machine.execStepV s
  | .stepS => Sys2Proof.Machine.execStepS s
  | .stepDone => Sys2Proof.Machine.execStepDone s

end Sys2Proof.Machine
end

