-- ==== Sys2Proof/Machine/Fetch.lean ====
section
/-! DEFINITION. What the engine does when it moves, and how a word is placed where it fetches next. -/

namespace Sys2Proof.Machine

/-- The enabled step of a launch in progress, chosen by `NVAL - OP` (44_stream_driver.md section 1). -/
def State.enabledStep (s : State) : Instr :=
  if s.op = s.nval then .stepDone
  else if 256 ≤ s.remaining then .stepV
  else .stepS

/-- The engine's move: the enabled step while BUSY; in IDLE, DONE and ERROR the engine has no step and its state stays
(44_stream_driver.md R184, 60_exceptions.md R209). Log entry 9. -/
def engineStep (s : State) : Host.Outcome State Fault Refusal :=
  if s.runState = .busy then exec s.enabledStep s else .next s

/-- A move: the host's next access, or the engine. Log entry 8. -/
def move (s : State) : Host.Outcome State Fault Refusal :=
  match s.turns with
  | [] => engineStep s
  | .engine :: rest => engineStep { s with turns := rest }
  | .host a :: rest => hostAct a { s with turns := rest }

/-- Place bytes in `IN` from an address on. -/
def writeInMany (m : List Host.Cell) (a : Nat) : List Byte → List Host.Cell
  | [] => m
  | v :: vs => writeInMany (writeIn m a v) (a + 1) vs

/-- `IN` with the longest block's room at `a` cleared to the unlisted byte, zero, and the given bytes placed at its start. -/
def placeBlock (m : List Host.Cell) (a : Nat) (bytes : List Byte) : List Host.Cell :=
  writeInMany (m.filter fun c => decide (c.1 < a ∨ a + Config.longestBlock ≤ c.1)) a bytes

/-- May the engine's next block simply be placed at `IP`: a launch in progress with values remaining and room for the longest
block below the largest legal `INLEN`. -/
def State.fetchesHere (s : State) : Bool :=
  decide (s.runState = .busy ∧ 0 < s.remaining ∧ s.ip.toNat + Config.longestBlock ≤ Config.maxInlen)

/-- `s` where the very next step decodes the block given by a table word. A launch in progress keeps its cursors; otherwise
this stands for the host's load and launch of one value (log entry 12). -/
def State.placeFetch (s : State) (nbits w : Nat) : State :=
  if s.fetchesHere then
    { s with
      inMem := placeBlock s.inMem s.ip.toNat (tableBytes nbits w)
      inlen := BitVec.ofNat 64 (max s.inlen.toNat (s.ip.toNat + Config.longestBlock))
      turns := [] }
  else
    { s.enterLaunch with
      inMem := placeBlock s.inMem 0 (tableBytes nbits w)
      inlen := BitVec.ofNat 64 Config.longestBlock
      nval := 1
      turns := [] }

end Sys2Proof.Machine
end

