-- ==== Sys2Proof/Safety.lean ====
section
/-! DEFINITION. The terms claims are stated in: bits of the stream as the spec numbers them, the frames of a block step and of a fault, the machine invariant. -/

namespace Sys2Proof.Safety

open Sys2Proof.Machine

/-- Bit `j` of the scalar bit-stream at byte `a`: bit `j mod 8` of `IN[a + j div 8]` (20_memory.md R51). Also the bit of
position `j` in an exception bitmap at `a` (R52). -/
def streamBit (i : Input) (a j : Nat) : Bool := (readIn i.bytes (a + j / 8)).getLsbD (j % 8)

/-- Bit `t` of the bit-stream of a lane, payload at `a` (41_bitunpack_256v.md R124). -/
def laneBit (i : Input) (a lane t : Nat) : Bool :=
  (readIn i.bytes (a + 32 * (t / 32) + 4 * lane + t % 32 / 8)).getLsbD (t % 8)

/-- The unsigned integer of `w` bits, bit 0 first (00_scope.md R5). -/
def bitsValue (bit : Nat → Bool) : Nat → Nat
  | 0 => 0
  | w + 1 => bitsValue bit w + (if bit w then 2 ^ w else 0)

/-- Value `k` of width `b` in the scalar layout: stream bits `k*b .. k*b + b - 1` (30_encoding.md R90). -/
def scalarValue (i : Input) (a b k : Nat) : Word32 :=
  BitVec.ofNat 32 (bitsValue (fun j => streamBit i a (k * b + j)) b)

/-- The value at position `p` in the 8-lane layout: lane `p mod 8`, lane bits `k*b .. k*b + b - 1` for `k = p div 8`
(41_bitunpack_256v.md R124). -/
def laneValue (i : Input) (a b p : Nat) : Word32 :=
  BitVec.ofNat 32 (bitsValue (fun j => laneBit i a (p % 8) (p / 8 * b + j)) b)

/-- Position `p` of a main payload at `a`, by mode (30_encoding.md R83, R90). -/
def mainValue (i : Input) (a b p : Nat) : Mode → Word32
  | .V => laneValue i a b p
  | .S => scalarValue i a b p

/-- `LM`, the main payload's length (30_encoding.md section 2). -/
def mainLen (n b : Nat) : Mode → Nat
  | .V => 32 * b
  | .S => (n * b + 7) / 8

/-- The little-endian word at `a` (20_memory.md R50). -/
def leWord (i : Input) (a : Nat) : Word32 :=
  BitVec.ofNat 32 ((readIn i.bytes a).toNat + 2 ^ 8 * (readIn i.bytes (a + 1)).toNat
    + 2 ^ 16 * (readIn i.bytes (a + 2)).toNat + 2 ^ 24 * (readIn i.bytes (a + 3)).toNat)

/-- `k` bytes at `a` lie below the read bound, or nothing is read (00_scope.md R8). -/
def Readable (i : Input) (a k : Nat) : Prop := k = 0 ∨ a + k ≤ i.len + 32

/-- A block step is enabled: BUSY with values remaining (44_stream_driver.md R181, R182). -/
def BlockEnabled (s : State) : Prop := s.runState = .busy ∧ 0 < s.remaining

/-- The header byte at `IP` lies below the read bound (43_pfor_block.md R150). -/
def HeaderReadable (s : State) : Prop := s.ip.toNat < s.inlen.toNat + 32

/-- The byte of `IN` at an address, as a number. -/
def inByte (s : State) (a : Nat) : Nat := (readIn s.inMem a).toNat

/-- The registers of the host block that a block step leaves alone. -/
def SameHostRegs (s t : State) : Prop :=
  t.nval = s.nval ∧ t.inlen = s.inlen ∧ t.consumed = s.consumed ∧ t.ecause = s.ecause ∧ t.eip = s.eip ∧
    t.eop = s.eop ∧ t.einfo = s.einfo

/-- `IN`, the turns to come and the host's last read are as before. -/
def Untouched (s t : State) : Prop := t.inMem = s.inMem ∧ t.turns = s.turns ∧ t.hostData = s.hostData

/-- What a block step of `len` bytes and `n` values does outside `OUT[OP .. OP + n)`: both cursors advance, every other
register but the dead scratch and every other word of `OUT` is unchanged (44_stream_driver.md R181, R182). -/
def BlockAdvance (s t : State) (len n : Nat) : Prop :=
  t.runState = s.runState ∧ SameHostRegs s t ∧ Untouched s t ∧
    t.ip = BitVec.ofNat 64 (s.ip.toNat + len) ∧ t.op = BitVec.ofNat 64 (s.op.toNat + n) ∧
    ∀ k, k < s.op.toNat ∨ s.op.toNat + n ≤ k → t.out.read k = s.out.read k

/-- Fault entry with a cause code and an information word (60_exceptions.md R196): what is saved, what changes and what does
not; CONSUMED, the scratch and `OUT[0 .. NVAL)` are unspecified. -/
def FaultEntry (s t : State) (code : BitVec 3) (info : Word64) : Prop :=
  t.runState = .error ∧ t.ecause = code ∧ t.eip = s.ip ∧ t.eop = s.op ∧ t.einfo = info ∧
    t.ip = s.ip ∧ t.op = s.op ∧ t.nval = s.nval ∧ t.inlen = s.inlen ∧ Untouched s t ∧
    ∀ k, s.nval.toNat ≤ k → t.out.read k = s.out.read k

/-- Every field but the scratch is as before: the frame of a unit or codeword that does not raise. -/
def OnlyScratch (s t : State) : Prop := t = { s with scratch := t.scratch }

/-- One codeword of value `e` and length `len` recorded: `EX[i] <- e`, `i` and `p` advanced, nothing else but the scratch
touched (42_vbdec.md R130). Where `i` is 320 or above no entry of `EX` changes: log entry 26, a DESIGN CHOICE. -/
def Pushed (s t : State) (e : Word32) (len : Nat) : Prop :=
  t = { s with scratch := { s.scratch with
    ex := s.scratch.ex.setIfInBounds s.scratch.vi.toNat e
    vi := s.scratch.vi + 1
    vp := BitVec.ofNat 64 (s.scratch.vp.toNat + len)
    len := BitVec.ofNat 64 len } }

/-- A run of values recorded from `a` on: `EX[k] <- es[k]` and the other entries kept, `i` the count, `p` after the run, nothing
else but `NEX` touched (42_vbdec.md R130). Values past the 320th stand in no entry: log entry 26, a DESIGN CHOICE. -/
def RunRecorded (s t : State) (a : Nat) (nex : BitVec 9) (es : List Word32) (len : Nat) : Prop :=
  t = { s with scratch := { s.scratch with
    ex := t.scratch.ex
    nex := nex
    vi := BitVec.ofNat 9 es.length
    vp := BitVec.ofNat 64 (a + len)
    len := BitVec.ofNat 64 len } } ∧
  ∀ k (h : k < Config.excap), t.scratch.ex[k] = es.getD k s.scratch.ex[k]

/-- The OR of the patches that a list of exceptions and indices contributes to position `p` (43_pfor_block.md R154). -/
def orPatches (b p : Nat) : List (Word32 × Nat) → Word32
  | [] => 0
  | (e, idx) :: rest => (if idx = p then patch e b else 0) ||| orPatches b p rest

/-- The number of set bitmap positions below `p`: the index of the exception of position `p` (43_pfor_block.md R155). -/
def bitmapRank (i : Input) (a p : Nat) : Nat := (List.range p).countP (streamBit i a)

/-- `idx` is the first index byte `>= n` of a BPVX block at `IP` with width `b`, everything before its index list readable and its VB
run decoded (43_pfor_block.md R154, 60_exceptions.md R193). -/
def FirstBadIndex (s : State) (b idx : Nat) : Prop :=
  let a := s.ip.toNat
  let n := s.blockCount
  let lm := mainLen n b s.blockMode
  let nex := inByte s (a + 1)
  Readable s.input (a + 1) 1 ∧ Readable s.input (a + 2) lm ∧
    ∃ e lv, vbdec s.input (a + 2 + lm) nex = .ok (e, lv) ∧ Readable s.input (a + 2 + lm + lv) nex ∧
      ∃ k < nex, inByte s (a + 2 + lm + lv + k) = idx ∧ n ≤ idx ∧ ∀ j < k, inByte s (a + 2 + lm + lv + j) < n

/-- `k` codewords run one after the other as instructions, each decoded from the lead byte at `vp`; a fault ends the run
(42_vbdec.md R130). -/
def runCodewords : Nat → State → Host.Outcome State Fault Refusal
  | 0, s => .next s
  | k + 1, s =>
    match exec (decodeVbLead (readIn s.inMem s.scratch.vp.toNat)) s with
    | .next t => if t.runState = .busy then runCodewords k t else .next t
    | .fault f => .fault f
    | .refused r => .refused r

/-- `k` steps of the machine; a stop ends the run (44_stream_driver.md R184). -/
def runSteps : Nat → State → Host.Outcome State Fault Refusal
  | 0, s => .next s
  | k + 1, s =>
    match step s with
    | .next t => runSteps k t
    | .fault f => .fault f
    | .refused r => .refused r

/-- The machine invariant: both memories canonical; while BUSY the payload length is legal, the cursors are within their
bounds and `OP` is at a block boundary (10_state.md R23, R24; 20_memory.md R60; 70_reset_and_hazards.md R224); ECAUSE is a cause
exactly in ERROR (R29, R33, R200), with EIP and EOP the cursors (60_exceptions.md R196); in DONE CONSUMED is IP (R183); in IDLE
everything is 0 (R45). -/
def MachineInv (s : State) : Prop :=
  Memory.wf s ∧
    (s.runState = .busy → s.inlen.toNat ≤ Config.maxInlen ∧ s.ip.toNat ≤ s.inlen.toNat + 32 ∧
      s.op.toNat ≤ s.nval.toNat ∧ (s.op.toNat % 256 = 0 ∨ s.op = s.nval)) ∧
    s.ecause.toNat ≤ 4 ∧ (s.ecause ≠ 0 ↔ s.runState = .error) ∧
    (s.runState = .error → s.eip = s.ip ∧ s.eop = s.op) ∧
    (s.runState ≠ .error → s.eip = 0 ∧ s.eop = 0 ∧ s.einfo = 0) ∧
    (s.runState = .done → s.consumed = s.ip) ∧
    (s.runState = .idle → s.ip = 0 ∧ s.op = 0 ∧ s.consumed = 0)

end Sys2Proof.Safety
end

