-- ==== Sys2Proof/Certificates/Slice0/Obligations.lean ====
section
/-! DEFINITION. The statements for the provers, from the numbered rules of spec/. -/

open Sys2Proof Sys2Proof.Machine Sys2Proof.Safety

/-! ## Encoding -/

/-- 30_encoding.md R97: within one context every byte value selects exactly one row of the opcode table, and the decoder
reads the instruction of that row. -/
def Obligations.DecodeFollowsOpcodeTable : Prop :=
  ∀ (sp : Space) (x : Byte) (rest : List Byte), ∃ i, decode sp (x :: rest) = .ok (i, rest) ∧ i.wf = true ∧
    (tableRows.filter fun r => r.selects sp x).map TableRow.mnemonic = [i.mnemonic]

/-- 30_encoding.md R88, R95, R97: every encoded well-formed instruction decodes back in each context it can stand in, whatever follows
it; and what decodes is well-formed, stands in that context and encodes to the byte read. -/
def Obligations.EncodedInstructionDecodesBack : Prop :=
  (∀ (i : Instr) (sp : Space) (rest : List Byte), i.wf = true → sp ∈ i.spaces →
    decode sp (encode i ++ rest) = .ok (i, rest)) ∧
  ∀ (i : Instr) (sp : Space) (bytes rest : List Byte), decode sp bytes = .ok (i, rest) →
    i.wf = true ∧ sp ∈ i.spaces ∧ bytes = encode i ++ rest

/-- Opcode bytes written out from 30_encoding.md R82 and R89. -/
def Obligations.SampleBytesDecode : Prop :=
  decode .header [0b00000111] = .ok (.bp 7, []) ∧ decode .header [0b01000100] = .ok (.bpvx 4, []) ∧
    decode .header [0b10000100] = .ok (.bpbx 4, []) ∧ decode .header [0b11001000] = .ok (.const 8, []) ∧
    decode .header [0b11100000] = .ok (.const 32, []) ∧ decode .header [0b00100001] = .ok (.illegalHeader 0x21, []) ∧
    decode .runFirst [0b10110000] = .ok (.vb1 176, []) ∧ decode .runFirst [0b10110001] = .ok (.vb2 177, []) ∧
    decode .vbLead [0b11111000] = .ok (.vb3 248, []) ∧ decode .vbLead [0b11111001] = .ok (.vb4, []) ∧
    decode .vbLead [0b11111010] = .ok (.vb5, []) ∧ decode .runFirst [0b11111111] = .ok (.vbraw, []) ∧
    decode .vbLead [0b11111111] = .ok (.reservedVbLead 255, []) ∧ decode .header [] = .error .endOfInput

/-! ## MemRead -/

/-- 00_scope.md R8, 20_memory.md R50, R70. -/
def Obligations.MemReadBoundAndByteOrder : Prop :=
  ∀ (i : Input) (a k : Nat), (k = 0 → memRead i a k = .ok 0) ∧
    (0 < k → i.len + 32 < a + k → memRead i a k = .error (.truncatedInput a)) ∧
    (0 < k → a + k ≤ i.len + 32 → ∃ v, memRead i a k = .ok v ∧ v < 2 ^ (8 * k) ∧
      ∀ j < 8 * k, v.testBit j = (readIn i.bytes (a + j / 8)).getLsbD (j % 8))

/-! ## Block instructions -/

/-- 43_pfor_block.md R152. -/
def Obligations.BpDecodesBlock : Prop :=
  ∀ (s : State) (b : BitVec 6), BlockEnabled s → HeaderReadable s → b.toNat ≤ 32 →
    Readable s.input (s.ip.toNat + 1) (mainLen s.blockCount b.toNat s.blockMode) →
    ∃ t, exec (.bp b) s = .next t ∧
      BlockAdvance s t (1 + mainLen s.blockCount b.toNat s.blockMode) s.blockCount ∧
      ∀ p < s.blockCount, t.out.read (s.op.toNat + p) = mainValue s.input (s.ip.toNat + 1) b.toNat p s.blockMode

/-- 43_pfor_block.md R153. -/
def Obligations.ConstDecodesBlock : Prop :=
  ∀ (s : State) (b : BitVec 6), BlockEnabled s → HeaderReadable s → b.toNat ≤ 32 →
    Readable s.input (s.ip.toNat + 1) ((b.toNat + 7) / 8) →
    ∃ t, exec (.const b) s = .next t ∧ BlockAdvance s t (1 + (b.toNat + 7) / 8) s.blockCount ∧
      ∀ p < s.blockCount, t.out.read (s.op.toNat + p) =
        BitVec.ofNat 32 (bitsValue (streamBit s.input (s.ip.toNat + 1)) b.toNat)

/-- 43_pfor_block.md R154: with the exceptions VBDEC decodes and every index below `n`. -/
def Obligations.BpvxDecodesBlock : Prop :=
  ∀ (s : State) (b : BitVec 6) (e : List Word32) (lv : Nat),
    let a := s.ip.toNat
    let n := s.blockCount
    let m := s.blockMode
    let lm := mainLen n b.toNat m
    let nex := inByte s (a + 1)
    let q := a + 2 + lm + lv
    BlockEnabled s → HeaderReadable s → b.toNat ≤ 32 → Readable s.input (a + 1) 1 → Readable s.input (a + 2) lm →
    vbdec s.input (a + 2 + lm) nex = .ok (e, lv) → Readable s.input q nex →
    (∀ k < nex, inByte s (q + k) < n) →
    ∃ t, exec (.bpvx b) s = .next t ∧ BlockAdvance s t (2 + lm + lv + nex) n ∧
      ∀ p < n, t.out.read (s.op.toNat + p) = mainValue s.input (a + 2) b.toNat p m |||
        orPatches b.toNat p (e.zip ((List.range nex).map fun k => inByte s (q + k)))

/-- 43_pfor_block.md R155. -/
def Obligations.BpbxDecodesBlock : Prop :=
  ∀ (s : State) (b : BitVec 6),
    let a := s.ip.toNat
    let n := s.blockCount
    let m := s.blockMode
    let lm := mainLen n b.toNat m
    let bx := inByte s (a + 1)
    let lb := (n + 7) / 8
    let lx := (bitmapRank s.input (a + 2) n * bx + 7) / 8
    BlockEnabled s → HeaderReadable s → b.toNat ≤ 32 → Readable s.input (a + 1) 1 → bx ≤ 32 →
    Readable s.input (a + 2) lb → Readable s.input (a + 2 + lb) lx → Readable s.input (a + 2 + lb + lx) lm →
    ∃ t, exec (.bpbx b) s = .next t ∧ BlockAdvance s t (2 + lb + lx + lm) n ∧
      ∀ p < n, t.out.read (s.op.toNat + p) = mainValue s.input (a + 2 + lb + lx) b.toNat p m +
        if streamBit s.input (a + 2) p then
          patch (scalarValue s.input (a + 2 + lb) bx (bitmapRank s.input (a + 2) p)) b.toNat
        else 0

/-- 43_pfor_block.md R158: in BPBX a patched position holds the OR as well as the sum. -/
def Obligations.BpbxAddAgreesWithOr : Prop :=
  ∀ (s t : State) (b : BitVec 6),
    let a := s.ip.toNat
    let n := s.blockCount
    let m := s.blockMode
    let bx := inByte s (a + 1)
    let lb := (n + 7) / 8
    let lx := (bitmapRank s.input (a + 2) n * bx + 7) / 8
    b.toNat ≤ 32 → exec (.bpbx b) s = .next t → t.runState = .busy →
      ∀ p < n, t.out.read (s.op.toNat + p) = mainValue s.input (a + 2 + lb + lx) b.toNat p m |||
        if streamBit s.input (a + 2) p then
          patch (scalarValue s.input (a + 2 + lb) bx (bitmapRank s.input (a + 2) p)) b.toNat
        else 0

/-! ## Faults of the block instructions -/

/-- 30_encoding.md R93: the illegal header bytes are those whose width is 33 to 63, in every shape, and each takes the fault. -/
def Obligations.IllegalHeaderTakesInvalidBitWidth : Prop :=
  ∀ (s : State) (h : Byte),
    (h.toNat % 64 ≤ 32 → decodeHeader h ∈ [Instr.bp (headerWidth h), .bpvx (headerWidth h), .bpbx (headerWidth h),
      .const (headerWidth h)]) ∧
    (32 < h.toNat % 64 → decodeHeader h = .illegalHeader h) ∧
    (BlockEnabled s → HeaderReadable s → 32 < h.toNat % 64 →
      ∃ t, exec (.illegalHeader h) s = .next t ∧ FaultEntry s t 2 (BitVec.ofNat 64 (h.toNat % 64)))

/-- 30_encoding.md R94. -/
def Obligations.BpbxWideBxTakesInvalidBitWidth : Prop :=
  ∀ (s : State) (b : BitVec 6), BlockEnabled s → HeaderReadable s → b.toNat ≤ 32 →
    Readable s.input (s.ip.toNat + 1) 1 → 32 < inByte s (s.ip.toNat + 1) →
    ∃ t, exec (.bpbx b) s = .next t ∧ FaultEntry s t 2 (BitVec.ofNat 64 (256 + inByte s (s.ip.toNat + 1)))

/-- 60_exceptions.md R193: BPVX takes ExceptionMismatch for the first index `>= n`; and whatever instruction ends a launch with that
cause is BPVX, or the tail step on it, in mode S with such an index. -/
def Obligations.ExceptionMismatchOnlyForBpvxIndex : Prop :=
  (∀ (s : State) (b : BitVec 6) (idx : Nat), BlockEnabled s → HeaderReadable s → b.toNat ≤ 32 → FirstBadIndex s b.toNat idx →
    ∃ t, exec (.bpvx b) s = .next t ∧ FaultEntry s t 3 (BitVec.ofNat 64 idx)) ∧
  ∀ (i : Instr) (s t : State), exec i s = .next t → s.runState = .busy → t.runState = .error → t.ecause = 3 →
    s.blockMode = .S ∧ ∃ b idx,
      (i = .bpvx b ∨ i = .stepS ∧ decodeHeader (readIn s.inMem s.ip.toNat) = .bpvx b) ∧
      FirstBadIndex s b.toNat idx ∧ t.einfo = BitVec.ofNat 64 idx

/-- 60_exceptions.md R191, R197: where the first read of a block's fields that passes the bound raises TruncatedInput. That a block
instruction executed on its own first reads its header byte is the model's (DEDUCED, log entry 16). -/
def Obligations.BlockFieldsPastBoundTakeTruncatedInput : Prop :=
  ∀ (s : State) (b : BitVec 6),
    let a := s.ip.toNat
    let n := s.blockCount
    let m := s.blockMode
    let lm := mainLen n b.toNat m
    let nex := inByte s (a + 1)
    let bx := inByte s (a + 1)
    let lb := (n + 7) / 8
    let lx := (bitmapRank s.input (a + 2) n * bx + 7) / 8
    let truncated := fun (i : Instr) (at_ : Nat) => ∃ t, exec i s = .next t ∧ FaultEntry s t 1 (BitVec.ofNat 64 at_)
    BlockEnabled s → b.toNat ≤ 32 →
    (¬ HeaderReadable s → ∀ i ∈ [Instr.bp b, .bpvx b, .bpbx b, .const b], truncated i a) ∧
    (HeaderReadable s →
      (¬ Readable s.input (a + 1) lm → truncated (.bp b) (a + 1)) ∧
      (¬ Readable s.input (a + 1) ((b.toNat + 7) / 8) → truncated (.const b) (a + 1)) ∧
      (¬ Readable s.input (a + 1) 1 → truncated (.bpvx b) (a + 1) ∧ truncated (.bpbx b) (a + 1)) ∧
      (Readable s.input (a + 1) 1 → ¬ Readable s.input (a + 2) lm → truncated (.bpvx b) (a + 2)) ∧
      (∀ e lv, Readable s.input (a + 1) 1 → Readable s.input (a + 2) lm →
        vbdec s.input (a + 2 + lm) nex = .ok (e, lv) → ¬ Readable s.input (a + 2 + lm + lv) nex →
        truncated (.bpvx b) (a + 2 + lm + lv)) ∧
      (Readable s.input (a + 1) 1 → bx ≤ 32 →
        (¬ Readable s.input (a + 2) lb → truncated (.bpbx b) (a + 2)) ∧
        (Readable s.input (a + 2) lb → ¬ Readable s.input (a + 2 + lb) lx → truncated (.bpbx b) (a + 2 + lb)) ∧
        (Readable s.input (a + 2) lb → Readable s.input (a + 2 + lb) lx → ¬ Readable s.input (a + 2 + lb + lx) lm →
          truncated (.bpbx b) (a + 2 + lb + lx))))

/-- 43_pfor_block.md R154, 60_exceptions.md R194, R197: what the VB run of a BPVX block raises, the block takes; so a reserved first
lead byte ends it with InvalidVBLead. -/
def Obligations.BpvxTakesTheFaultOfItsVbRun : Prop :=
  ∀ (s : State) (b : BitVec 6),
    let a := s.ip.toNat
    let lm := mainLen s.blockCount b.toNat s.blockMode
    let nex := inByte s (a + 1)
    let x := inByte s (a + 2 + lm)
    BlockEnabled s → HeaderReadable s → b.toNat ≤ 32 → Readable s.input (a + 1) 1 → Readable s.input (a + 2) lm →
    (∀ r, vbdec s.input (a + 2 + lm) nex = .error r →
      ∃ t, exec (.bpvx b) s = .next t ∧ FaultEntry s t r.code r.info) ∧
    (0 < nex → Readable s.input (a + 2 + lm) 1 → 251 ≤ x → x ≤ 254 →
      ∃ t, exec (.bpvx b) s = .next t ∧ FaultEntry s t 4 (BitVec.ofNat 64 x)) ∧
    (0 < nex → ¬ Readable s.input (a + 2 + lm) 1 →
      ∃ t, exec (.bpvx b) s = .next t ∧ FaultEntry s t 1 (BitVec.ofNat 64 (a + 2 + lm)))

/-- 60_exceptions.md R196: a fault overwrites CONSUMED and every word of `OUT[0 .. NVAL)` with values that nothing constrains, all of
one draw, and the state it leaves has made that draw. The free values, whatever they are, are the model's form of
"unspecified" (log entries 5 and 6). -/
def Obligations.FaultDrawsOutputAndConsumed : Prop :=
  ∀ (i : Instr) (s t : State), exec i s = .next t → s.runState = .busy → t.runState = .error →
    t.consumed = Config.freeBits 64 s.draw 0 ∧ (∀ k < s.nval.toNat, t.out.read k = Config.freeBits 32 s.draw k) ∧
      s.draws < t.draws

/-! ## Units -/

/-- 40_bitunpack_scalar.md R110, R112. That the unit is a step of its own with its results in the scratch is the model's (log
entries 15 and 19). -/
def Obligations.UnpackSReturnsStreamValues : Prop :=
  ∀ (s : State) (a : Word64) (n : BitVec 9) (b : BitVec 6), s.runState = .busy → (Instr.unpackS a n b).wf = true →
    Readable s.input a.toNat ((n.toNat * b.toNat + 7) / 8) →
    ∃ t, exec (.unpackS a n b) s = .next t ∧
      t = { s with scratch := { s.scratch with
        v := t.scratch.v, len := BitVec.ofNat 64 ((n.toNat * b.toNat + 7) / 8)
        sacc := t.scratch.sacc, scnt := t.scratch.scnt } } ∧
      ∀ k (h : k < 256), k < n.toNat → t.scratch.v[k] = scalarValue s.input a.toNat b.toNat k

/-- 41_bitunpack_256v.md R120, R122, R124. That the unit is a step of its own with its results in the scratch is the model's (log
entries 15 and 19). -/
def Obligations.UnpackVReturnsLaneValues : Prop :=
  ∀ (s : State) (a : Word64) (b : BitVec 6), s.runState = .busy → (Instr.unpackV a b).wf = true →
    Readable s.input a.toNat (32 * b.toNat) →
    ∃ t, exec (.unpackV a b) s = .next t ∧
      t = { s with scratch := { s.scratch with
        v := t.scratch.v, len := BitVec.ofNat 64 (32 * b.toNat), acc := Vector.replicate 8 0, cnt := 0 } } ∧
      ∀ p (h : p < 256), t.scratch.v[p] = laneValue s.input a.toNat b.toNat p

/-- 40_bitunpack_scalar.md R114, 41_bitunpack_256v.md R125. That a unit run on its own takes the fault is the model's (log entry
15). -/
def Obligations.UnpackersPastBoundTakeTruncatedInput : Prop :=
  ∀ (s : State) (a : Word64) (n : BitVec 9) (b : BitVec 6), s.runState = .busy → (Instr.unpackS a n b).wf = true →
    (¬ Readable s.input a.toNat ((n.toNat * b.toNat + 7) / 8) →
      ∃ t, exec (.unpackS a n b) s = .next t ∧ FaultEntry s t 1 a) ∧
    (¬ Readable s.input a.toNat (32 * b.toNat) → ∃ t, exec (.unpackV a b) s = .next t ∧ FaultEntry s t 1 a)

/-- 40_bitunpack_scalar.md R111: the operational UNPACK.S gives the values and the length of the functional one and is left with
the unused bits of the last byte; it raises exactly when the functional one does. -/
def Obligations.ScalarUnpackerOperationalAgrees : Prop :=
  ∀ (i : Input) (a n b : Nat), n ≤ 256 → b ≤ 32 →
    (∀ v len, unpackS i a n b = .ok (v, len) → ∃ st, unpackSOp i a n b = .ok (v, st) ∧ st.p = a + len ∧
      st.scnt = 8 * len - n * b ∧ st.scnt ≤ 7 ∧
      st.sacc.toNat = bitsValue (fun j => streamBit i a (n * b + j)) st.scnt) ∧
    (∀ r, unpackS i a n b = .error r → ∃ p, unpackSOp i a n b = .error (.truncatedInput p) ∧ i.len + 32 ≤ p)

/-- 41_bitunpack_256v.md R121: the operational UNPACK.V gives the values and the length of the functional one, with nothing left
over; it raises exactly when the functional one does. -/
def Obligations.LaneUnpackerOperationalAgrees : Prop :=
  ∀ (i : Input) (a b : Nat), b ≤ 32 →
    (∀ v len, unpackV i a b = .ok (v, len) → ∃ st, unpackVOp i a b = .ok (v, st) ∧ st.p = a + len ∧
      st.cnt = 0 ∧ st.acc = Vector.replicate 8 0) ∧
    (∀ r, unpackV i a b = .error r → ∃ p, unpackVOp i a b = .error (.truncatedInput p) ∧ i.len + 32 < p + 4)

/-! ## VBDEC and its codewords -/

/-- 42_vbdec.md R132. That a codeword is a step of its own that records into the scratch is the model's (log
entries 15 and 26). -/
def Obligations.Vb1Value : Prop :=
  ∀ (s : State) (x : Byte), s.runState = .busy → (Instr.vb1 x).wf = true → Readable s.input s.scratch.vp.toNat 1 →
    ∃ t, exec (.vb1 x) s = .next t ∧ Pushed s t (BitVec.ofNat 32 x.toNat) 1

/-- 42_vbdec.md R133. That a codeword is a step of its own that records into the scratch is the model's (log
entries 15 and 26). -/
def Obligations.Vb2Value : Prop :=
  ∀ (s : State) (x : Byte), s.runState = .busy → (Instr.vb2 x).wf = true →
    (Readable s.input (s.scratch.vp.toNat + 1) 1 →
      ∃ t, exec (.vb2 x) s = .next t ∧
        Pushed s t (BitVec.ofNat 32 ((x.toNat - 177) * 2 ^ 8 + inByte s (s.scratch.vp.toNat + 1) + 177)) 2) ∧
    (Readable s.input s.scratch.vp.toNat 1 → ¬ Readable s.input (s.scratch.vp.toNat + 1) 1 →
      ∃ t, exec (.vb2 x) s = .next t ∧ FaultEntry s t 1 (BitVec.ofNat 64 (s.scratch.vp.toNat + 1)))

/-- 42_vbdec.md R134. That a codeword is a step of its own that records into the scratch is the model's (log
entries 15 and 26). -/
def Obligations.Vb3Value : Prop :=
  ∀ (s : State) (x : Byte), s.runState = .busy → (Instr.vb3 x).wf = true →
    (Readable s.input (s.scratch.vp.toNat + 1) 2 →
      ∃ t, exec (.vb3 x) s = .next t ∧
        Pushed s t (BitVec.ofNat 32 ((x.toNat - 241) * 2 ^ 16 + inByte s (s.scratch.vp.toNat + 1)
          + inByte s (s.scratch.vp.toNat + 2) * 2 ^ 8 + 16561)) 3) ∧
    (Readable s.input s.scratch.vp.toNat 1 → ¬ Readable s.input (s.scratch.vp.toNat + 1) 2 →
      ∃ t, exec (.vb3 x) s = .next t ∧ FaultEntry s t 1 (BitVec.ofNat 64 (s.scratch.vp.toNat + 1)))

/-- 42_vbdec.md R135: four bytes must be readable, three count and are consumed. That a codeword is a step of its own that records
into the scratch is the model's (log entries 15 and 26). -/
def Obligations.Vb4Value : Prop :=
  ∀ (s : State), s.runState = .busy →
    (Readable s.input (s.scratch.vp.toNat + 1) 4 →
      ∃ t, exec .vb4 s = .next t ∧
        Pushed s t (BitVec.ofNat 32 (inByte s (s.scratch.vp.toNat + 1) + inByte s (s.scratch.vp.toNat + 2) * 2 ^ 8
          + inByte s (s.scratch.vp.toNat + 3) * 2 ^ 16)) 4) ∧
    (Readable s.input s.scratch.vp.toNat 1 → ¬ Readable s.input (s.scratch.vp.toNat + 1) 4 →
      ∃ t, exec .vb4 s = .next t ∧ FaultEntry s t 1 (BitVec.ofNat 64 (s.scratch.vp.toNat + 1)))

/-- 42_vbdec.md R136. That a codeword is a step of its own that records into the scratch is the model's (log
entries 15 and 26). -/
def Obligations.Vb5Value : Prop :=
  ∀ (s : State), s.runState = .busy →
    (Readable s.input (s.scratch.vp.toNat + 1) 4 →
      ∃ t, exec .vb5 s = .next t ∧ Pushed s t (leWord s.input (s.scratch.vp.toNat + 1)) 5) ∧
    (Readable s.input s.scratch.vp.toNat 1 → ¬ Readable s.input (s.scratch.vp.toNat + 1) 4 →
      ∃ t, exec .vb5 s = .next t ∧ FaultEntry s t 1 (BitVec.ofNat 64 (s.scratch.vp.toNat + 1)))

/-- 42_vbdec.md R137: which lead bytes are reserved, at the first byte of a run and after it, and what each takes.
That it is an instruction of its own that takes the fault is the model's (log entry 15). -/
def Obligations.ReservedLeadTakesInvalidVBLead : Prop :=
  ∀ (s : State) (x : Byte), 251 ≤ x.toNat →
    decodeByte .vbLead x = .reservedVbLead x ∧
    (x.toNat ≤ 254 → decodeByte .runFirst x = .reservedVbLead x) ∧
    (s.runState = .busy → Readable s.input s.scratch.vp.toNat 1 →
      ∃ t, exec (.reservedVbLead x) s = .next t ∧ FaultEntry s t 4 (BitVec.ofNat 64 x.toNat))

/-- 42_vbdec.md R131: the raw form as an instruction, its sentinel at `p` and its count in `NEX`, which is the model's (log
entries 15 and 16), as is what a `NEX` past the 255 of R130 does (log entry 26). -/
def Obligations.VbrawCopiesWords : Prop :=
  ∀ (s : State), s.runState = .busy → Readable s.input s.scratch.vp.toNat 1 →
    (Readable s.input (s.scratch.vp.toNat + 1) (4 * s.scratch.nex.toNat) →
      ∃ t, exec .vbraw s = .next t ∧ RunRecorded s t s.scratch.vp.toNat s.scratch.nex
        ((List.range s.scratch.nex.toNat).map fun k => leWord s.input (s.scratch.vp.toNat + 1 + 4 * k))
        (1 + 4 * s.scratch.nex.toNat)) ∧
    (¬ Readable s.input (s.scratch.vp.toNat + 1) (4 * s.scratch.nex.toNat) →
      ∃ t, exec .vbraw s = .next t ∧ FaultEntry s t 1 (BitVec.ofNat 64 (s.scratch.vp.toNat + 1)))

/-- 60_exceptions.md R191, 42_vbdec.md R130: a codeword, a raw run or a run of `n > 0` values whose first byte lies past the bound.
That these run on their own, first read that byte and take the fault is the model's (log entry 15, and 16, DEDUCED). -/
def Obligations.LeadBytePastBoundTakesTruncatedInput : Prop :=
  ∀ (s : State), s.runState = .busy →
    (¬ Readable s.input s.scratch.vp.toNat 1 →
      ∀ x, ∀ i ∈ [Instr.vb1 x, .vb2 x, .vb3 x, .vb4, .vb5, .reservedVbLead x, .vbraw],
        ∃ t, exec i s = .next t ∧ FaultEntry s t 1 s.scratch.vp) ∧
    ∀ (a : Word64) (n : BitVec 9), (Instr.vbdec a n).wf = true → 0 < n.toNat → ¬ Readable s.input a.toNat 1 →
      ∃ t, exec (.vbdec a n) s = .next t ∧ FaultEntry s t 1 a

/-- 42_vbdec.md R130: a run that does not start with the sentinel is its codewords executed one after the other, value by value
and fault by fault; what a fault leaves unspecified is not compared. That codewords are steps of their own is the model's (log
entry 15). -/
def Obligations.VbdecIsItsCodewords : Prop :=
  ∀ (s t : State) (a : Word64) (n : BitVec 9), s.runState = .busy → (Instr.vbdec a n).wf = true → 0 < n.toNat →
    s.inlen.toNat ≤ Config.maxInlen → inByte s a.toNat ≠ 255 → exec (.vbdec a n) s = .next t →
    ∃ u, runCodewords n.toNat { s with scratch := { s.scratch with nex := n, vp := a, vi := 0 } } = .next u ∧
      (t.runState = .error → ∃ code info, FaultEntry s t code info ∧ FaultEntry s u code info) ∧
      (t.runState = .busy → t = { u with scratch := { u.scratch with len := t.scratch.len } })

/-- 42_vbdec.md R131, R140: a run whose first byte is the sentinel is raw, whatever the words hold. That VBDEC is a
step of its own that records into the scratch is the model's (log entry 15). -/
def Obligations.VbdecSentinelRunIsRaw : Prop :=
  ∀ (s : State) (a : Word64) (n : BitVec 9), s.runState = .busy → (Instr.vbdec a n).wf = true → 0 < n.toNat →
    Readable s.input a.toNat 1 → inByte s a.toNat = 255 →
    (Readable s.input (a.toNat + 1) (4 * n.toNat) →
      ∃ t, exec (.vbdec a n) s = .next t ∧ RunRecorded s t a.toNat n
        ((List.range n.toNat).map fun k => leWord s.input (a.toNat + 1 + 4 * k)) (1 + 4 * n.toNat)) ∧
    (¬ Readable s.input (a.toNat + 1) (4 * n.toNat) →
      ∃ t, exec (.vbdec a n) s = .next t ∧ FaultEntry s t 1 (BitVec.ofNat 64 (a.toNat + 1)))

/-- 42_vbdec.md R139: an empty run, for either value of the open parameter: with the test it reads one byte and consumes it if
it is the sentinel, without it it reads nothing. That VBDEC is a step of its own is the model's (log entry 15). -/
def Obligations.VbdecEmptyRun : Prop :=
  ∀ (s : State) (a : Word64), s.runState = .busy →
    ∃ t, exec (.vbdec a 0) s = .next t ∧
      if Config.vbdecEmptyChecksSentinel = true ∧ s.inlen.toNat + 32 ≤ a.toNat then FaultEntry s t 1 a
      else RunRecorded s t a.toNat 0 []
        (if Config.vbdecEmptyChecksSentinel = true ∧ inByte s a.toNat = 255 then 1 else 0)

/-- 42_vbdec.md R138: a run of 1 to 255 values in canonical codewords decodes to those values, with its exact length, whatever
follows it. That VBDEC is a step of its own that records into the scratch is the model's (log entry 15). -/
def Obligations.CanonicalVbRunDecodesBack : Prop :=
  ∀ (s : State) (a : Word64) (es : List Word32), s.runState = .busy → 1 ≤ es.length → es.length ≤ 255 →
    (∀ k (h : k < (encodeVbRun es).length), readIn s.inMem (a.toNat + k) = (encodeVbRun es)[k]) →
    Readable s.input a.toNat ((encodeVbRun es).length + 1) →
    ∃ t, exec (.vbdec a (BitVec.ofNat 9 es.length)) s = .next t ∧
      RunRecorded s t a.toNat (BitVec.ofNat 9 es.length) es (encodeVbRun es).length

/-! ## The sequencer -/

/-- 44_stream_driver.md R180: the launch step, ignored while BUSY, and the host's write that performs it. -/
def Obligations.LaunchStartsRun : Prop :=
  ∀ (s : State),
    (s.runState ≠ .busy → s.inlen.toNat ≤ 2 ^ 64 - 33 →
      ∃ t, exec .launch s = .next t ∧
        t = { s with ip := 0, op := 0, ecause := 0, eip := 0, eop := 0, einfo := 0, runState := .busy }) ∧
    (s.runState = .busy → exec .launch s = .next s) ∧
    ∀ v ts, v.getLsbD 0 = true → s.turns = .host (.writeReg 0 v) :: ts → step s = exec .launch { s with turns := ts }

/-- 70_reset_and_hazards.md R224: a payload length without room for the padding has no launch; the refusal is the model's way
to give it no meaning (log entry 10). -/
def Obligations.LaunchOutsideSpecIsRefused : Prop :=
  ∀ (s : State), s.runState ≠ .busy → 2 ^ 64 - 33 < s.inlen.toNat → exec .launch s = .refused .launchOutsideSpec

/-- 44_stream_driver.md R181: the block's values and length, or the fault BLOCK raises. -/
def Obligations.StepVDecodesOneBlock : Prop :=
  ∀ (s : State), s.runState = .busy → 256 ≤ s.nval.toNat - s.op.toNat →
    (∀ v len, block s.input s.ip.toNat 256 .V = .ok (v, len) →
      ∃ t, exec .stepV s = .next t ∧ BlockAdvance s t len 256 ∧ v.length = 256 ∧
        ∀ p (h : p < v.length), t.out.read (s.op.toNat + p) = v[p]) ∧
    ∀ r, block s.input s.ip.toNat 256 .V = .error r → ∃ t, exec .stepV s = .next t ∧ FaultEntry s t r.code r.info

/-- 44_stream_driver.md R182: the tail's values and length, or the fault BLOCK raises. -/
def Obligations.StepSDecodesTail : Prop :=
  ∀ (s : State),
    let n := s.nval.toNat - s.op.toNat
    s.runState = .busy → 0 < n → n < 256 →
    (∀ v len, block s.input s.ip.toNat n .S = .ok (v, len) →
      ∃ t, exec .stepS s = .next t ∧ BlockAdvance s t len n ∧ t.op = s.nval ∧ v.length = n ∧
        ∀ p (h : p < v.length), t.out.read (s.op.toNat + p) = v[p]) ∧
    ∀ r, block s.input s.ip.toNat n .S = .error r → ∃ t, exec .stepS s = .next t ∧ FaultEntry s t r.code r.info

/-- 44_stream_driver.md R183. -/
def Obligations.StepDoneCompletes : Prop :=
  ∀ (s : State), s.runState = .busy → s.op = s.nval →
    ∃ t, exec .stepDone s = .next t ∧ t = { s with consumed := s.ip, runState := .done }

/-- 30_encoding.md R91: a decoded block has its count of values and is 1 to 2556 bytes long. -/
def Obligations.BlockLengthBounds : Prop :=
  ∀ (i : Input) (a n : Nat) (m : Mode) (v : List Word32) (len : Nat), n ≤ 256 → (m = .V → n = 256) →
    block i a n m = .ok (v, len) → v.length = n ∧ 1 ≤ len ∧ len ≤ 2556

/-- A step runs the decoded instruction: when the byte at `IP` decodes, `step` is `exec` of that instruction. -/
def Obligations.StepRunsDecodedInstruction : Prop :=
  ∀ (s : State) (i : Instr) (rest : List Byte), BlockEnabled s → HeaderReadable s →
    decode .header (s.input.bytesAt s.ip.toNat 1) = .ok (i, rest) → i.wf = true →
    (s.turns = [] → step s = exec i s) ∧
    (∀ ts, s.turns = .engine :: ts → step s = exec i { s with turns := ts })

/-- 44_stream_driver.md section 1: in BUSY exactly the step that `NVAL - OP` selects runs; in any other state the engine has
none (what `step` answers there is the model's choice, log entry 9). -/
def Obligations.StepRunsEnabledSequencerStep : Prop :=
  ∀ (s : State), s.turns = [] →
    (s.runState = .busy → 256 ≤ s.nval.toNat - s.op.toNat → step s = exec .stepV s) ∧
    (s.runState = .busy → 0 < s.nval.toNat - s.op.toNat → s.nval.toNat - s.op.toNat < 256 → step s = exec .stepS s) ∧
    (s.runState = .busy → s.op = s.nval → step s = exec .stepDone s) ∧
    (s.runState ≠ .busy → step s = .next s)

/-- 44_stream_driver.md R185: the run from the launched state is DECODE. After a fault the steps left over answer the same state, by
the model's choice (log entry 9; R184 gives the engine no step there). -/
def Obligations.RunIsDecode : Prop :=
  ∀ (s : State), s.runState = .busy → s.turns = [] → s.ip = 0 → s.op = 0 → s.inlen.toNat ≤ Config.maxInlen →
    let nblocks := s.nval.toNat / 256 + if s.nval.toNat % 256 = 0 then 0 else 1
    ∃ t, runSteps (nblocks + 1) s = .next t ∧
      (∀ v consumed, decodeRun s.input s.nval.toNat = .ok (v, consumed) →
        t.runState = .done ∧ t.consumed.toNat = consumed ∧ v.length = s.nval.toNat ∧
          (∀ p (h : p < v.length), t.out.read p = v[p]) ∧ ∀ p, s.nval.toNat ≤ p → t.out.read p = s.out.read p) ∧
      (∀ f, decodeRun s.input s.nval.toNat = .error f →
        t.runState = .error ∧ t.ecause = f.cause.code ∧ t.einfo = f.cause.info ∧ t.eip.toNat = f.eip ∧
          t.eop.toNat = f.eop)

/-- 44_stream_driver.md R187: every run ends, after at most one block step per 256 values, one for the tail and the
completion. After the end the steps left over answer the same state, by the model's choice (log entry 9). -/
def Obligations.EveryRunEnds : Prop :=
  ∀ (s : State), MachineInv s → s.runState = .busy → s.turns = [] →
    ∃ t, runSteps ((s.nval.toNat - s.op.toNat) / 256 + 2) s = .next t ∧ (t.runState = .done ∨ t.runState = .error)

/-- 10_state.md R23, 44_stream_driver.md R187: a successful block step advances `IP` by at least the header byte and keeps it within
the read bound. -/
def Obligations.BlockStepAdvancesCursors : Prop :=
  ∀ (s t : State), MachineInv s → s.runState = .busy → s.op ≠ s.nval → s.turns = [] → step s = .next t → t.runState = .busy →
    s.ip.toNat < t.ip.toNat ∧ t.ip.toNat ≤ s.inlen.toNat + 32 ∧ s.op.toNat < t.op.toNat ∧ t.op.toNat ≤ s.nval.toNat ∧
      (t.op.toNat = s.op.toNat + 256 ∨ t.op = s.nval)

/-! ## Whole-machine rules -/

/-- The invariant holds at reset. -/
def Obligations.ResetSatisfiesInv : Prop := MachineInv State.reset

/-- Every step keeps the invariant. -/
def Obligations.StepKeepsInv : Prop := ∀ (s t : State), MachineInv s → step s = .next t → MachineInv t

/-- Every instruction keeps the invariant, whichever is executed. -/
def Obligations.InstructionKeepsInv : Prop := ∀ (i : Instr) (s t : State), MachineInv s → exec i s = .next t → MachineInv t

/-- 10_state.md R29: the only transitions of STATE, each with its cause: the launch step by a queued write of START, the completion
with `OP = NVAL`, a recorded fault of a block step, a queued reset. -/
def Obligations.OnlyListedStateTransitions : Prop :=
  ∀ (s t : State), step s = .next t →
    t.runState = s.runState ∨
      (s.runState ≠ .busy ∧ t.runState = .busy ∧ ∃ v ts, s.turns = .host (.writeReg 0 v) :: ts ∧ v.getLsbD 0 = true) ∨
      (s.runState = .busy ∧ t.runState = .done ∧ s.op = s.nval ∧ t.consumed = s.ip) ∨
      (s.runState = .busy ∧ t.runState = .error ∧ s.op ≠ s.nval ∧ 1 ≤ t.ecause.toNat ∧ t.ecause.toNat ≤ 4 ∧ t.eip = s.ip ∧
        t.eop = s.op) ∨
      (t.runState = .idle ∧ ∃ ts, s.turns = .host .reset :: ts)

/-- 20_memory.md R58, R60; 10_state.md R30, R43: no instruction changes a byte of `IN`, a launch argument or a word of `OUT` at or past
`NVAL`. -/
def Obligations.EngineKeepsInputAndWordsPastNval : Prop :=
  ∀ (i : Instr) (s t : State), exec i s = .next t →
    (∀ a, readIn t.inMem a = readIn s.inMem a) ∧ t.nval = s.nval ∧ t.inlen = s.inlen ∧ t.turns = s.turns ∧
      t.hostData = s.hostData ∧ ∀ k, s.nval.toNat ≤ k → t.out.read k = s.out.read k

/-- 20_memory.md R62, R70, 10_state.md R44: a step of a launch is a function of `IN[0 .. INLEN + 32)`, `INLEN`, `IP`, `OP` and `NVAL`;
no byte past the read bound and nothing an earlier block or launch left behind has an influence. -/
def Obligations.StepIsFunctionOfLaunchAndCursors : Prop :=
  ∀ (s s' t t' : State), s.runState = .busy → s'.runState = .busy → s.turns = [] → s'.turns = [] →
    (∀ a < s.inlen.toNat + 32, readIn s'.inMem a = readIn s.inMem a) →
    s'.inlen = s.inlen → s'.ip = s.ip → s'.op = s.op → s'.nval = s.nval →
    step s = .next t → step s' = .next t' →
    t'.runState = t.runState ∧ t'.ip = t.ip ∧ t'.op = t.op ∧
      (t.runState = .error → t'.ecause = t.ecause ∧ t'.eip = t.eip ∧ t'.eop = t.eop ∧ t'.einfo = t.einfo) ∧
      (t.runState = .done → t'.consumed = t.consumed) ∧
      (t.runState = .busy → ∀ k, s.op.toNat ≤ k → k < s.op.toNat + s.blockCount → t'.out.read k = t.out.read k)

/-! ## The host and reset -/

/-- 10_state.md R27 to R36: what a host read of each register returns; it changes nothing else. -/
def Obligations.HostReadsRegisters : Prop :=
  ∀ (s : State) (index : Nat) (ts : List Turn), s.turns = .host (.readReg index) :: ts →
    ∃ v, step s = .next { s with turns := ts, hostData := v } ∧
      (index = 0 → v = 0) ∧
      (index = 1 → v = match s.runState with | .idle => 0 | .busy => 1 | .done => 2 | .error => 3) ∧
      (index = 2 → v = s.nval) ∧ (index = 3 → v = s.inlen) ∧ (index = 4 → v = s.consumed) ∧
      (index = 5 → v.toNat = s.ecause.toNat) ∧ (index = 6 → v = s.eip) ∧ (index = 7 → v = s.eop) ∧
      (index = 8 → v = s.einfo) ∧ (9 ≤ index → v = 0)

/-- 10_state.md R28, R30, R31, R37; 70_reset_and_hazards.md R229: what a host write of each register does. -/
def Obligations.HostWritesRegisters : Prop :=
  ∀ (s : State) (index : Nat) (v : Word64) (ts : List Turn), s.turns = .host (.writeReg index v) :: ts →
    let s' := { s with turns := ts }
    (index = 0 → v.getLsbD 0 = true → step s = exec .launch s') ∧
    (index = 0 → v.getLsbD 0 = false → step s = .next s') ∧
    (s.runState = .busy → step s = .next s') ∧
    (s.runState ≠ .busy → index = 2 → step s = .next { s' with nval := v }) ∧
    (s.runState ≠ .busy → index = 3 → step s = .next { s' with inlen := v }) ∧
    (index = 1 ∨ 4 ≤ index → step s = .next s')

/-- 70_reset_and_hazards.md R222, R226, R227: the host's accesses to both memories, and the duties it may not break while BUSY. That
an access is a queued turn (log entry 8), that a broken duty is refused (log entry 11) and that a write past the launch's ranges is
stored (log entry 24) are the model's. -/
def Obligations.HostMemoryAccesses : Prop :=
  (∀ (s : State) (acc : HostAccess) (ts : List Turn), s.turns = .host acc :: ts → step s = hostAct acc { s with turns := ts }) ∧
  ∀ (s : State) (a : Word64) (x : Byte) (w : Word32),
    (s.runState ≠ .busy ∨ s.inlen.toNat + 32 ≤ a.toNat ∨ x = readIn s.inMem a.toNat →
      ∃ m, hostAct (.writeIn a x) s = .next { s with inMem := m } ∧
        ∀ k, readIn m k = if k = a.toNat then x else readIn s.inMem k) ∧
    (s.runState = .busy → a.toNat < s.inlen.toNat + 32 → x ≠ readIn s.inMem a.toNat →
      hostAct (.writeIn a x) s = .refused .hostDutyBroken) ∧
    (s.runState ≠ .busy ∨ s.nval.toNat ≤ a.toNat → ∃ o, hostAct (.writeOut a w) s = .next { s with out := o } ∧
      ∀ k, o.read k = if k = a.toNat then w else s.out.read k) ∧
    (s.runState = .busy → a.toNat < s.nval.toNat → hostAct (.writeOut a w) s = .refused .hostDutyBroken) ∧
    (s.runState ≠ .busy ∨ s.nval.toNat ≤ a.toNat → ∃ v, hostAct (.readOut a) s = .next { s with hostData := v } ∧
      v.toNat = (s.out.read a.toNat).toNat) ∧
    (s.runState = .busy → a.toNat < s.nval.toNat →
      ∃ v d, hostAct (.readOut a) s = .next { s with hostData := v, draws := d } ∧ v.toNat < 2 ^ 32 ∧ s.draws < d)

/-- 10_state.md R45, 70_reset_and_hazards.md R220, R221: what a reset leaves. -/
def Obligations.ResetLeaves : Prop :=
  ∀ (s : State) (ts : List Turn), s.turns = .host .reset :: ts →
    ∃ t, step s = .next t ∧ t.runState = .idle ∧ t.nval = 0 ∧ t.inlen = 0 ∧ t.consumed = 0 ∧ t.ecause = 0 ∧ t.eip = 0 ∧
      t.eop = 0 ∧ t.einfo = 0 ∧ t.ip = 0 ∧ t.op = 0 ∧ (∀ a, readIn t.inMem a = readIn s.inMem a) ∧
      (s.runState ≠ .busy → ∀ k, t.out.read k = s.out.read k) ∧
      ∀ k, s.nval.toNat ≤ k → t.out.read k = s.out.read k

/-- 10_state.md R45: the state right after reset. -/
def Obligations.ResetStateValues : Prop :=
  State.reset.runState = .idle ∧ State.reset.nval = 0 ∧ State.reset.inlen = 0 ∧ State.reset.consumed = 0 ∧
    State.reset.ecause = 0 ∧ State.reset.eip = 0 ∧ State.reset.eop = 0 ∧ State.reset.einfo = 0 ∧ State.reset.ip = 0 ∧
    State.reset.op = 0 ∧ State.reset.inMem = [] ∧ State.reset.out.cells = [] ∧ State.reset.out.floods = []
end

