-- ==== Sys2Proof/Laws/State.lean ====
section
/-! SUPPORT. One lemma per field and update of State, true by rfl. -/

namespace Sys2Proof.Machine

@[simp] theorem State.forgetScratch_runState (s : State) : s.forgetScratch.runState = s.runState := rfl
@[simp] theorem State.forgetScratch_nval (s : State) : s.forgetScratch.nval = s.nval := rfl
@[simp] theorem State.forgetScratch_inlen (s : State) : s.forgetScratch.inlen = s.inlen := rfl
@[simp] theorem State.forgetScratch_consumed (s : State) : s.forgetScratch.consumed = s.consumed := rfl
@[simp] theorem State.forgetScratch_ecause (s : State) : s.forgetScratch.ecause = s.ecause := rfl
@[simp] theorem State.forgetScratch_eip (s : State) : s.forgetScratch.eip = s.eip := rfl
@[simp] theorem State.forgetScratch_eop (s : State) : s.forgetScratch.eop = s.eop := rfl
@[simp] theorem State.forgetScratch_einfo (s : State) : s.forgetScratch.einfo = s.einfo := rfl
@[simp] theorem State.forgetScratch_ip (s : State) : s.forgetScratch.ip = s.ip := rfl
@[simp] theorem State.forgetScratch_op (s : State) : s.forgetScratch.op = s.op := rfl
@[simp] theorem State.forgetScratch_scratch (s : State) : s.forgetScratch.scratch = freeScratch s.draw := rfl
@[simp] theorem State.forgetScratch_inMem (s : State) : s.forgetScratch.inMem = s.inMem := rfl
@[simp] theorem State.forgetScratch_out (s : State) : s.forgetScratch.out = s.out := rfl
@[simp] theorem State.forgetScratch_draws (s : State) : s.forgetScratch.draws = s.draws + 1 := rfl
@[simp] theorem State.forgetScratch_turns (s : State) : s.forgetScratch.turns = s.turns := rfl
@[simp] theorem State.forgetScratch_hostData (s : State) : s.forgetScratch.hostData = s.hostData := rfl

@[simp] theorem State.takeFault_runState (s : State) (r : Raise) : (s.takeFault r).runState = .error := rfl
@[simp] theorem State.takeFault_nval (s : State) (r : Raise) : (s.takeFault r).nval = s.nval := rfl
@[simp] theorem State.takeFault_inlen (s : State) (r : Raise) : (s.takeFault r).inlen = s.inlen := rfl
@[simp] theorem State.takeFault_consumed (s : State) (r : Raise) : (s.takeFault r).consumed = Config.freeBits 64 s.draw 0 := rfl
@[simp] theorem State.takeFault_ecause (s : State) (r : Raise) : (s.takeFault r).ecause = r.code := rfl
@[simp] theorem State.takeFault_eip (s : State) (r : Raise) : (s.takeFault r).eip = s.ip := rfl
@[simp] theorem State.takeFault_eop (s : State) (r : Raise) : (s.takeFault r).eop = s.op := rfl
@[simp] theorem State.takeFault_einfo (s : State) (r : Raise) : (s.takeFault r).einfo = r.info := rfl
@[simp] theorem State.takeFault_ip (s : State) (r : Raise) : (s.takeFault r).ip = s.ip := rfl
@[simp] theorem State.takeFault_op (s : State) (r : Raise) : (s.takeFault r).op = s.op := rfl
@[simp] theorem State.takeFault_scratch (s : State) (r : Raise) : (s.takeFault r).scratch = freeScratch (s.recordFault r).draw := rfl
@[simp] theorem State.takeFault_inMem (s : State) (r : Raise) : (s.takeFault r).inMem = s.inMem := rfl
@[simp] theorem State.takeFault_out (s : State) (r : Raise) : (s.takeFault r).out = s.out.flood s.nval.toNat s.draw := rfl
@[simp] theorem State.takeFault_draws (s : State) (r : Raise) : (s.takeFault r).draws = s.draws + 1 + 1 := rfl
@[simp] theorem State.takeFault_turns (s : State) (r : Raise) : (s.takeFault r).turns = s.turns := rfl
@[simp] theorem State.takeFault_hostData (s : State) (r : Raise) : (s.takeFault r).hostData = s.hostData := rfl

@[simp] theorem State.enterLaunch_runState (s : State) : s.enterLaunch.runState = .busy := rfl
@[simp] theorem State.enterLaunch_nval (s : State) : s.enterLaunch.nval = s.nval := rfl
@[simp] theorem State.enterLaunch_inlen (s : State) : s.enterLaunch.inlen = s.inlen := rfl
@[simp] theorem State.enterLaunch_consumed (s : State) : s.enterLaunch.consumed = s.consumed := rfl
@[simp] theorem State.enterLaunch_ecause (s : State) : s.enterLaunch.ecause = 0 := rfl
@[simp] theorem State.enterLaunch_eip (s : State) : s.enterLaunch.eip = 0 := rfl
@[simp] theorem State.enterLaunch_eop (s : State) : s.enterLaunch.eop = 0 := rfl
@[simp] theorem State.enterLaunch_einfo (s : State) : s.enterLaunch.einfo = 0 := rfl
@[simp] theorem State.enterLaunch_ip (s : State) : s.enterLaunch.ip = 0 := rfl
@[simp] theorem State.enterLaunch_op (s : State) : s.enterLaunch.op = 0 := rfl
@[simp] theorem State.enterLaunch_scratch (s : State) : s.enterLaunch.scratch = s.scratch := rfl
@[simp] theorem State.enterLaunch_inMem (s : State) : s.enterLaunch.inMem = s.inMem := rfl
@[simp] theorem State.enterLaunch_out (s : State) : s.enterLaunch.out = s.out := rfl
@[simp] theorem State.enterLaunch_draws (s : State) : s.enterLaunch.draws = s.draws := rfl
@[simp] theorem State.enterLaunch_turns (s : State) : s.enterLaunch.turns = s.turns := rfl
@[simp] theorem State.enterLaunch_hostData (s : State) : s.enterLaunch.hostData = s.hostData := rfl

@[simp] theorem State.doReset_runState (s : State) : s.doReset.runState = .idle := rfl
@[simp] theorem State.doReset_nval (s : State) : s.doReset.nval = 0 := rfl
@[simp] theorem State.doReset_inlen (s : State) : s.doReset.inlen = 0 := rfl
@[simp] theorem State.doReset_consumed (s : State) : s.doReset.consumed = 0 := rfl
@[simp] theorem State.doReset_ecause (s : State) : s.doReset.ecause = 0 := rfl
@[simp] theorem State.doReset_eip (s : State) : s.doReset.eip = 0 := rfl
@[simp] theorem State.doReset_eop (s : State) : s.doReset.eop = 0 := rfl
@[simp] theorem State.doReset_einfo (s : State) : s.doReset.einfo = 0 := rfl
@[simp] theorem State.doReset_ip (s : State) : s.doReset.ip = 0 := rfl
@[simp] theorem State.doReset_op (s : State) : s.doReset.op = 0 := rfl
@[simp] theorem State.doReset_scratch (s : State) : s.doReset.scratch = freeScratch s.resetRegs.draw := rfl
@[simp] theorem State.doReset_inMem (s : State) : s.doReset.inMem = s.inMem := rfl
@[simp] theorem State.doReset_out (s : State) : s.doReset.out = (if s.runState = .busy then s.out.flood s.nval.toNat s.draw else s.out) := rfl
@[simp] theorem State.doReset_draws (s : State) : s.doReset.draws = s.draws + 1 + 1 := rfl
@[simp] theorem State.doReset_turns (s : State) : s.doReset.turns = s.turns := rfl
@[simp] theorem State.doReset_hostData (s : State) : s.doReset.hostData = s.hostData := rfl

@[simp] theorem State.commitBlock_runState (s : State) (vs : List Word32) (len n : Nat) : (s.commitBlock vs len n).runState = s.runState := rfl
@[simp] theorem State.commitBlock_nval (s : State) (vs : List Word32) (len n : Nat) : (s.commitBlock vs len n).nval = s.nval := rfl
@[simp] theorem State.commitBlock_inlen (s : State) (vs : List Word32) (len n : Nat) : (s.commitBlock vs len n).inlen = s.inlen := rfl
@[simp] theorem State.commitBlock_consumed (s : State) (vs : List Word32) (len n : Nat) : (s.commitBlock vs len n).consumed = s.consumed := rfl
@[simp] theorem State.commitBlock_ecause (s : State) (vs : List Word32) (len n : Nat) : (s.commitBlock vs len n).ecause = s.ecause := rfl
@[simp] theorem State.commitBlock_eip (s : State) (vs : List Word32) (len n : Nat) : (s.commitBlock vs len n).eip = s.eip := rfl
@[simp] theorem State.commitBlock_eop (s : State) (vs : List Word32) (len n : Nat) : (s.commitBlock vs len n).eop = s.eop := rfl
@[simp] theorem State.commitBlock_einfo (s : State) (vs : List Word32) (len n : Nat) : (s.commitBlock vs len n).einfo = s.einfo := rfl
@[simp] theorem State.commitBlock_ip (s : State) (vs : List Word32) (len n : Nat) : (s.commitBlock vs len n).ip = BitVec.ofNat 64 (s.ip.toNat + len) := rfl
@[simp] theorem State.commitBlock_op (s : State) (vs : List Word32) (len n : Nat) : (s.commitBlock vs len n).op = BitVec.ofNat 64 (s.op.toNat + n) := rfl
@[simp] theorem State.commitBlock_scratch (s : State) (vs : List Word32) (len n : Nat) : (s.commitBlock vs len n).scratch = freeScratch (s.advance vs len n).draw := rfl
@[simp] theorem State.commitBlock_inMem (s : State) (vs : List Word32) (len n : Nat) : (s.commitBlock vs len n).inMem = s.inMem := rfl
@[simp] theorem State.commitBlock_out (s : State) (vs : List Word32) (len n : Nat) : (s.commitBlock vs len n).out = s.out.writeMany s.op.toNat vs := rfl
@[simp] theorem State.commitBlock_draws (s : State) (vs : List Word32) (len n : Nat) : (s.commitBlock vs len n).draws = s.draws + 1 := rfl
@[simp] theorem State.commitBlock_turns (s : State) (vs : List Word32) (len n : Nat) : (s.commitBlock vs len n).turns = s.turns := rfl
@[simp] theorem State.commitBlock_hostData (s : State) (vs : List Word32) (len n : Nat) : (s.commitBlock vs len n).hostData = s.hostData := rfl

@[simp] theorem State.input_bytes (s : State) : s.input.bytes = s.inMem := rfl
@[simp] theorem State.input_len (s : State) : s.input.len = s.inlen.toNat := rfl

end Sys2Proof.Machine
end

