-- ==== Sys2Proof/Laws/Memory.lean ====
section
/-! SUPPORT. The laws of both memories: reads after writes, and that every operation keeps the canonical form. -/

namespace Sys2Proof.Machine

section cells
variable {α : Type}

theorem cellGet_cellPut (k j : Nat) (v : α) (l : List (Nat × α)) :
    cellGet j (cellPut k v l) = if j = k then some v else cellGet j l := by
  induction l with
  | nil => simp [cellPut, cellGet, eq_comm]
  | cons c rest ih =>
    obtain ⟨a, w⟩ := c
    simp only [cellPut]
    split
    · simp only [cellGet, ih]; split <;> rename_i h <;> split <;> simp_all
    · split <;> simp only [cellGet] <;> split <;> rename_i h <;> simp_all [eq_comm]

theorem cellGet_filter (p : Nat → Bool) (j : Nat) (l : List (Nat × α)) :
    cellGet j (l.filter fun c => p c.1) = if p j then cellGet j l else none := by
  induction l with
  | nil => simp [cellGet]
  | cons c rest ih =>
    obtain ⟨a, w⟩ := c
    by_cases ha : p a <;> by_cases hj : a = j <;> simp_all [cellGet]

theorem cellGet_cellDel (k j : Nat) (l : List (Nat × α)) :
    cellGet j (cellDel k l) = if j = k then none else cellGet j l := by
  have := cellGet_filter (fun x => decide (x ≠ k)) j l
  by_cases h : j = k <;> simp_all [cellDel]

theorem mem_cellPut {c : Nat × α} {k : Nat} {v : α} {l : List (Nat × α)} (h : c ∈ cellPut k v l) :
    c = (k, v) ∨ c ∈ l := by
  induction l with
  | nil => simpa [cellPut] using h
  | cons d rest ih =>
    obtain ⟨a, w⟩ := d
    simp only [cellPut] at h
    split at h
    · rcases List.mem_cons.1 h with h | h
      · simp [h]
      · rcases ih h with h | h <;> simp [h]
    · split at h <;> simp only [List.mem_cons] at h ⊢ <;> tauto

theorem cellPut_rising {k : Nat} {v : α} {l : List (Nat × α)} (h : CellsRising l) :
    CellsRising (cellPut k v l) := by
  induction l with
  | nil => simp [cellPut, CellsRising]
  | cons d rest ih =>
    obtain ⟨a, w⟩ := d
    obtain ⟨hd, hr⟩ := List.pairwise_cons.1 h
    simp only [cellPut]
    split
    · refine List.pairwise_cons.2 ⟨fun c hc => ?_, ih hr⟩
      rcases mem_cellPut hc with rfl | hc
      · assumption
      · exact hd c hc
    · split
      · subst_vars; exact List.pairwise_cons.2 ⟨hd, hr⟩
      · refine List.pairwise_cons.2 ⟨fun c hc => ?_, h⟩
        rcases List.mem_cons.1 hc with rfl | hc
        · simp only; omega
        · have := hd c hc; simp only at this ⊢; omega

theorem filter_rising {p : Nat × α → Bool} {l : List (Nat × α)} (h : CellsRising l) :
    CellsRising (l.filter p) := List.Pairwise.filter _ h

end cells

theorem readIn_writeIn (m : List Host.Cell) (a b : Nat) (v : Byte) :
    readIn (writeIn m a v) b = if b = a then v else readIn m b := by
  unfold writeIn readIn
  split <;> rename_i h
  · subst h; rw [cellGet_cellDel]; split <;> simp
  · rw [cellGet_cellPut]; split <;> simp

theorem writeIn_wf {m : List Host.Cell} (h : inWf m) (a : Nat) (v : Byte) : inWf (writeIn m a v) := by
  unfold writeIn
  split
  · exact ⟨filter_rising h.1, fun c hc => h.2 c (List.mem_filter.1 hc).1⟩
  · refine ⟨cellPut_rising h.1, fun c hc => ?_⟩
    rcases mem_cellPut hc with rfl | hc
    · assumption
    · exact h.2 c hc

theorem OutMem.read_write (o : OutMem) (i j : Nat) (v : Word32) :
    (o.write i v).read j = if j = i then v else o.read j := by
  unfold OutMem.write
  split
  · rename_i h
    obtain ⟨rfl, hf⟩ := h
    simp only [OutMem.read, cellGet_cellDel]
    by_cases hj : j = i
    · subst hj
      have : o.floods.find? (fun f => decide (j < f.limit)) = none := by
        simpa [OutMem.flooded] using hf
      simp [this]
    · simp [hj]
  · simp only [OutMem.read, cellGet_cellPut]
    by_cases hj : j = i <;> simp [hj]

theorem OutMem.read_writeMany (vs : List Word32) : ∀ (o : OutMem) (i j : Nat),
    (o.writeMany i vs).read j = if i ≤ j then vs.getD (j - i) (o.read j) else o.read j := by
  induction vs with
  | nil => intro o i j; simp [OutMem.writeMany]
  | cons v vs ih =>
    intro o i j
    rw [OutMem.writeMany, ih, OutMem.read_write]
    by_cases h1 : j = i
    · subst h1; simp
    · by_cases h2 : i ≤ j
      · have h3 : i + 1 ≤ j := by omega
        obtain ⟨d, rfl⟩ : ∃ d, j = i + 1 + d := ⟨j - (i + 1), by omega⟩
        have : i + 1 + d - i = d + 1 := by omega
        simp [h1, h2, this]
      · have h3 : ¬ i + 1 ≤ j := by omega
        simp [h1, h2, h3]

theorem find?_filter_limit (fs : List Flood) (limit j : Nat) (h : limit ≤ j) :
    ((fs.filter fun f => decide (limit < f.limit)).find? fun f => decide (j < f.limit)) =
      fs.find? fun f => decide (j < f.limit) := by
  induction fs with
  | nil => rfl
  | cons f fs ih =>
    by_cases hf : limit < f.limit
    · simp [hf, List.find?_cons, ih]
    · have : ¬ j < f.limit := by omega
      simp [hf, this, ih]

theorem OutMem.read_flood (o : OutMem) (limit draw j : Nat) :
    (o.flood limit draw).read j = if j < limit then Config.freeBits 32 draw j else o.read j := by
  unfold OutMem.flood
  split
  · subst_vars; simp
  · have hc := cellGet_filter (fun a => decide (limit ≤ a)) j o.cells
    by_cases hj : j < limit
    · have : ¬ limit ≤ j := by omega
      simp only [this, decide_false, Bool.false_eq_true, ite_false] at hc
      simp [OutMem.read, hc, hj]
    · have h' : limit ≤ j := by omega
      simp only [h', decide_true, ite_true] at hc
      simp only [OutMem.read, hc, hj, ite_false, List.find?_cons, decide_false]
      rw [find?_filter_limit _ _ _ h']

theorem OutMem.write_wf {o : OutMem} (h : o.wf) (i : Nat) (v : Word32) : (o.write i v).wf := by
  obtain ⟨h1, h2, h3, h4⟩ := h
  unfold OutMem.write
  split
  · exact ⟨filter_rising h1, fun c hc => h2 c (List.mem_filter.1 hc).1, h3, h4⟩
  · rename_i hn
    refine ⟨cellPut_rising h1, fun c hc => ?_, h3, h4⟩
    rcases mem_cellPut hc with rfl | hc
    · by_cases hv : v = unlistedOut
      · right; simpa [hv, OutMem.flooded] using hn
      · exact .inl hv
    · exact h2 c hc

theorem OutMem.writeMany_wf (vs : List Word32) : ∀ {o : OutMem}, o.wf → ∀ i, (o.writeMany i vs).wf := by
  induction vs with
  | nil => intro o h i; exact h
  | cons v vs ih => intro o h i; exact ih (OutMem.write_wf h i v) (i + 1)

theorem OutMem.flood_wf {o : OutMem} (h : o.wf) (limit draw : Nat) : (o.flood limit draw).wf := by
  obtain ⟨h1, h2, h3, h4⟩ := h
  unfold OutMem.flood
  split
  · exact ⟨h1, h2, h3, h4⟩
  · rename_i hl
    refine ⟨filter_rising h1, fun c hc => ?_, List.pairwise_cons.2 ⟨fun f hf => ?_, List.Pairwise.filter _ h3⟩,
      fun f hf => ?_⟩
    · obtain ⟨hc, hlim⟩ := List.mem_filter.1 hc
      refine (h2 c hc).imp_right fun hfl => ?_
      obtain ⟨f, hf, hlt⟩ := List.any_eq_true.1 hfl
      have hlim := of_decide_eq_true hlim
      have hlt := of_decide_eq_true hlt
      refine List.any_eq_true.2 ⟨f, List.mem_cons_of_mem _ (List.mem_filter.2 ⟨hf, ?_⟩), by simpa using hlt⟩
      simp only [decide_eq_true_eq]; omega
    · have := (List.mem_filter.1 hf).2
      simpa using this
    · rcases List.mem_cons.1 hf with rfl | hf
      · simp only; omega
      · exact h4 f (List.mem_filter.1 hf).1

end Sys2Proof.Machine
end

