-- ==== Sys2Proof/Laws/Bits.lean ====
section
/-! SUPPORT. From bytes to bits: the little-endian value bit by bit, and the unpackers' values as the spec numbers their bits. -/

namespace Sys2Proof.Machine

open Sys2Proof.Safety

theorem le_lt (l : List Byte) : le l < 2 ^ (8 * l.length) := by
  induction l with
  | nil => simp [le]
  | cons b rest ih =>
    have hb := b.isLt
    have : 2 ^ (8 * (rest.length + 1)) = 256 * 2 ^ (8 * rest.length) := by rw [Nat.mul_add, Nat.pow_add]; omega
    simp only [le, List.length_cons, this]
    omega

theorem le_testBit (l : List Byte) : ∀ j, (le l).testBit j = (l.getD (j / 8) 0).getLsbD (j % 8) := by
  induction l with
  | nil => intro j; simp [le]
  | cons b rest ih =>
    intro j
    have h : le (b :: rest) = 2 ^ 8 * le rest + b.toNat := by simp only [le]; omega
    rw [h, Nat.testBit_two_pow_mul_add _ (by simpa using b.isLt)]
    by_cases hj : j < 8
    · simp [hj, Nat.div_eq_of_lt hj, Nat.mod_eq_of_lt hj, BitVec.testBit_toNat]
    · obtain ⟨d, rfl⟩ : ∃ d, j = d + 8 := ⟨j - 8, by omega⟩
      simp [hj, ih]

@[simp] theorem Input.length_bytesAt (i : Input) (a k : Nat) : (i.bytesAt a k).length = k := by
  simp [Input.bytesAt]

theorem Input.getD_bytesAt (i : Input) (a k j : Nat) (h : j < k) :
    (i.bytesAt a k).getD j 0 = readIn i.bytes (a + j) := by
  simp [Input.bytesAt, h]

theorem le_bytesAt_testBit (i : Input) (a k j : Nat) (h : j < 8 * k) :
    (le (i.bytesAt a k)).testBit j = streamBit i a j := by
  rw [le_testBit, Input.getD_bytesAt _ _ _ _ (by omega)]
  rfl

theorem bitsValue_lt (bit : Nat → Bool) (w : Nat) : bitsValue bit w < 2 ^ w := by
  induction w with
  | zero => simp [bitsValue]
  | succ w ih => simp only [bitsValue, Nat.pow_succ]; split <;> omega

theorem bitsValue_testBit (bit : Nat → Bool) (w : Nat) : ∀ j,
    (bitsValue bit w).testBit j = (decide (j < w) && bit j) := by
  induction w with
  | zero => intro j; simp [bitsValue]
  | succ w ih =>
    intro j
    have h : bitsValue bit (w + 1) = 2 ^ w * (if bit w then 1 else 0) + bitsValue bit w := by
      simp only [bitsValue]; split <;> omega
    rw [h, Nat.testBit_two_pow_mul_add _ (bitsValue_lt bit w), ih]
    by_cases hj : j < w
    · have : j < w + 1 := by omega
      simp [hj, this]
    · by_cases hw : j = w
      · subst hw; cases hb : bit j <;> simp
      · have h1 : ¬ j < w + 1 := by omega
        have h2 : 0 < j - w := by omega
        have h3 : (if bit w = true then 1 else 0 : Nat) < 2 ^ (j - w) :=
          lt_of_le_of_lt (by split <;> omega) (Nat.one_lt_two_pow (by omega))
        simp [hj, h1, Nat.testBit_lt_two_pow h3]

theorem bitsValue_congr {f g : Nat → Bool} {w : Nat} (h : ∀ j < w, f j = g j) : bitsValue f w = bitsValue g w := by
  apply Nat.eq_of_testBit_eq
  intro j
  rw [bitsValue_testBit, bitsValue_testBit]
  by_cases hj : j < w <;> simp [hj, h]

theorem and_mask_testBit (x w j : Nat) : (x &&& mask w).testBit j = (decide (j < w) && x.testBit j) := by
  simp [mask]

/-- A masked slice of a stream is the integer of its bits. -/
theorem slice_eq_bitsValue (x b k : Nat) :
    (x >>> (k * b)) &&& mask b = bitsValue (fun j => x.testBit (k * b + j)) b := by
  apply Nat.eq_of_testBit_eq
  intro j
  rw [and_mask_testBit, bitsValue_testBit, Nat.testBit_shiftRight]

/-- Value `k` of a scalar payload of `len` bytes that holds it. -/
theorem streamValue_eq_scalarValue (i : Input) (a len b k : Nat) (h : k * b + b ≤ 8 * len) :
    streamValue (le (i.bytesAt a len)) b k = scalarValue i a b k := by
  unfold streamValue scalarValue
  rw [slice_eq_bitsValue]
  congr 1
  exact bitsValue_congr fun j hj => le_bytesAt_testBit _ _ _ _ (by omega)

theorem laneStream_lt (i : Input) (a lane : Nat) : ∀ n, laneStream i a lane n < 2 ^ (32 * n) := by
  intro n
  induction n with
  | zero => simp [laneStream]
  | succ n ih =>
    have hw : laneWord i a n lane < 2 ^ 32 := by
      have := le_lt (i.bytesAt (a + 32 * n + 4 * lane) 4); simpa [laneWord] using this
    have e : 2 ^ (32 * (n + 1)) = 2 ^ 32 * 2 ^ (32 * n) := by rw [← Nat.pow_add]; congr 1; omega
    rw [laneStream]
    apply Nat.or_lt_two_pow
    · exact lt_of_lt_of_le ih (Nat.pow_le_pow_right (by omega) (by omega))
    · rw [Nat.shiftLeft_eq, e]
      exact Nat.mul_lt_mul_of_pos_right hw (Nat.two_pow_pos _)

theorem laneStream_testBit (i : Input) (a lane : Nat) : ∀ n t, t < 32 * n →
    (laneStream i a lane n).testBit t = laneBit i a lane t := by
  intro n
  induction n with
  | zero => intro t h; omega
  | succ n ih =>
    intro t h
    rw [laneStream, Nat.testBit_or, Nat.testBit_shiftLeft]
    by_cases ht : t < 32 * n
    · simp [ih t ht, show ¬ 32 * n ≤ t by omega]
    · have h1 : (laneStream i a lane n).testBit t = false := by
        apply Nat.testBit_lt_two_pow
        exact lt_of_lt_of_le (laneStream_lt i a lane n) (Nat.pow_le_pow_right (by omega) (by omega))
      have h2 : (laneWord i a n lane).testBit (t - 32 * n) = streamBit i (a + 32 * n + 4 * lane) (t - 32 * n) :=
        le_bytesAt_testBit _ _ _ _ (by omega)
      rw [h1, h2]
      have h3 : t / 32 = n := by omega
      have h4 : t % 32 = t - 32 * n := by omega
      have h5 : (t - 32 * n) % 8 = t % 8 := by omega
      have h6 : 32 * n ≤ t := by omega
      simp [h6, streamBit, laneBit, h3, h4, h5]

/-- The value at position `p` of a lane payload. -/
theorem lane_eq_laneValue (i : Input) (a b p : Nat) (h : p < 256) :
    streamValue (laneStream i a (p % 8) b) b (p / 8) = laneValue i a b p := by
  unfold streamValue laneValue
  rw [slice_eq_bitsValue]
  congr 1
  refine bitsValue_congr fun j hj => laneStream_testBit _ _ _ _ _ ?_
  have : p / 8 ≤ 31 := by omega
  nlinarith

end Sys2Proof.Machine
end

