-- ==== Sys2Proof/Laws/Units.lean ====
section
/-! SUPPORT. What MemRead, the unpackers, VBDEC and the block bodies answer: values, lengths, bounds and faults. -/

/-- The end of a read that stays below the bound does so too. -/
theorem Sys2Proof.Safety.Readable.end_le {i : Sys2Proof.Machine.Input} {a k : Nat}
    (h : Sys2Proof.Safety.Readable i a k) (ha : a ≤ i.len + 32) : a + k ≤ i.len + 32 := by
  rcases h with rfl | h <;> omega

namespace Sys2Proof.Machine

open Sys2Proof.Safety

theorem cdiv_eight (x : Nat) : cdiv x 8 = (x + 7) / 8 := rfl

section except
variable {ε α β : Type}

/-- A chain that answers ran its head and its tail. -/
theorem bind_ok_iff {x : Except ε α} {f : α → Except ε β} {b : β} :
    (x >>= f) = .ok b ↔ ∃ a, x = .ok a ∧ f a = .ok b := by
  cases x <;> simp [bind, Except.bind]

/-- A chain that raises raised in its head or in its tail. -/
theorem bind_error_iff {x : Except ε α} {f : α → Except ε β} {e : ε} :
    (x >>= f) = .error e ↔ x = .error e ∨ ∃ a, x = .ok a ∧ f a = .error e := by
  cases x <;> simp [bind, Except.bind]

@[simp] theorem ok_bind (a : α) (f : α → Except ε β) : (Except.ok a >>= f) = f a := rfl

@[simp] theorem error_bind (e : ε) (f : α → Except ε β) : (Except.error e >>= f) = .error e := rfl

end except

theorem memRead_of_readable {i : Input} {a k : Nat} (h : Readable i a k) :
    memRead i a k = .ok (le (i.bytesAt a k)) := by
  unfold memRead
  rcases h with rfl | h
  · simp [Input.bytesAt, le]
  · have : ¬ i.len + 32 < a + k := by omega
    by_cases hk : k = 0 <;> simp [hk, this, Input.bytesAt, le]

theorem memRead_ok_iff {i : Input} {a k x : Nat} :
    memRead i a k = .ok x ↔ Readable i a k ∧ x = le (i.bytesAt a k) := by
  by_cases h : Readable i a k
  · rw [memRead_of_readable h]; simp [h, eq_comm]
  · simp only [h, false_and, iff_false]
    simp only [Readable, not_or, not_le] at h
    simp [memRead, h.1, h.2]

theorem memRead_error_iff {i : Input} {a k : Nat} {r : Raise} :
    memRead i a k = .error r ↔ k ≠ 0 ∧ i.len + 32 < a + k ∧ r = .truncatedInput a := by
  unfold memRead
  by_cases hk : k = 0
  · simp [hk]
  · by_cases hl : i.len + 32 < a + k <;> simp [hk, hl, eq_comm]

theorem memRead_of_not_readable {i : Input} {a k : Nat} (h : ¬ Readable i a k) :
    memRead i a k = .error (.truncatedInput a) := by
  simp only [Readable, not_or, not_le] at h
  exact memRead_error_iff.2 ⟨h.1, h.2, rfl⟩

/-- A one-byte read is the byte. -/
theorem memRead_one {i : Input} {a : Nat} (h : a < i.len + 32) :
    memRead i a 1 = .ok (readIn i.bytes a).toNat := by
  rw [memRead_of_readable (.inr (by omega))]
  simp [Input.bytesAt, le]

theorem unpackS_of_readable {i : Input} {a n b : Nat} (h : Readable i a ((n * b + 7) / 8)) :
    unpackS i a n b = .ok ((List.range n).map (scalarValue i a b), (n * b + 7) / 8) := by
  simp only [unpackS, cdiv_eight, memRead_of_readable h, ok_bind]
  congr 2
  apply List.map_congr_left
  intro k hk
  have hk := List.mem_range.1 hk
  have : (k + 1) * b ≤ n * b := Nat.mul_le_mul_right _ hk
  exact streamValue_eq_scalarValue _ _ _ _ _ (by rw [Nat.add_mul] at this; omega)

theorem unpackS_of_not_readable {i : Input} {a n b : Nat} (h : ¬ Readable i a ((n * b + 7) / 8)) :
    unpackS i a n b = .error (.truncatedInput a) := by
  simp [unpackS, cdiv_eight, memRead_of_not_readable h]

theorem unpackV_of_readable {i : Input} {a b : Nat} (h : Readable i a (32 * b)) :
    unpackV i a b = .ok ((List.range 256).map (laneValue i a b), 32 * b) := by
  simp only [unpackV, memRead_of_readable h, ok_bind]
  congr 2
  apply List.map_congr_left
  intro p hp
  have hp := List.mem_range.1 hp
  have : ((List.range 8).map fun lane => laneStream i a lane b).getD (p % 8) 0 = laneStream i a (p % 8) b := by
    have : p % 8 < 8 := Nat.mod_lt _ (by omega)
    simp [this]
  rw [this, lane_eq_laneValue _ _ _ _ hp]

theorem unpackV_of_not_readable {i : Input} {a b : Nat} (h : ¬ Readable i a (32 * b)) :
    unpackV i a b = .error (.truncatedInput a) := by
  simp [unpackV, memRead_of_not_readable h]

/-- The chosen unpacker, in mode V with its 256 values. -/
theorem unpackM_of_readable {i : Input} {q n b : Nat} {m : Mode} (hm : m = .V → n = 256)
    (h : Readable i q (mainLen n b m)) :
    unpackM i q n b m = .ok ((List.range n).map (mainValue i q b · m), mainLen n b m) := by
  cases m with
  | V => rw [hm rfl]; exact unpackV_of_readable h
  | S => exact unpackS_of_readable h

theorem unpackM_of_not_readable {i : Input} {q n b : Nat} {m : Mode}
    (h : ¬ Readable i q (mainLen n b m)) : unpackM i q n b m = .error (.truncatedInput q) := by
  cases m with
  | V => exact unpackV_of_not_readable h
  | S => exact unpackS_of_not_readable h

theorem unpackS_ok {i : Input} {a n b len : Nat} {v : List Word32} (h : unpackS i a n b = .ok (v, len)) :
    Readable i a len ∧ len = (n * b + 7) / 8 ∧ v = (List.range n).map (scalarValue i a b) := by
  by_cases hr : Readable i a ((n * b + 7) / 8)
  · rw [unpackS_of_readable hr] at h; cases h; exact ⟨hr, rfl, rfl⟩
  · rw [unpackS_of_not_readable hr] at h; cases h

theorem unpackM_ok {i : Input} {q n b len : Nat} {m : Mode} {v : List Word32} (hm : m = .V → n = 256)
    (h : unpackM i q n b m = .ok (v, len)) :
    Readable i q len ∧ len = mainLen n b m ∧ v = (List.range n).map (mainValue i q b · m) := by
  by_cases hr : Readable i q (mainLen n b m)
  · rw [unpackM_of_readable hm hr] at h; cases h; exact ⟨hr, rfl, rfl⟩
  · rw [unpackM_of_not_readable hr] at h; cases h

/-- A codeword that decodes consumed 1 to 5 bytes and ends below the read bound. -/
theorem codeword_ok {i : Input} {p len : Nat} {x : Byte} {e : Word32} (hp : p + 1 ≤ i.len + 32)
    (h : codeword i p x = .ok (e, len)) : 1 ≤ len ∧ len ≤ 5 ∧ p + len ≤ i.len + 32 := by
  have tail : ∀ {k : Nat} {f : Nat → Word32} {l : Nat}, k ≤ 4 → l ≤ k + 1 → 1 ≤ l →
      (memRead i (p + 1) k >>= fun w => Except.ok (f w, l)) = .ok (e, len) → 1 ≤ len ∧ len ≤ 5 ∧ p + len ≤ i.len + 32 := by
    intro k f l hk hl h1 h
    obtain ⟨w, hw, hv⟩ := bind_ok_iff.1 h
    have := (memRead_ok_iff.1 hw).1.end_le hp
    cases hv
    omega
  unfold codeword at h
  split at h
  · cases h; omega
  · split at h
    · exact tail (k := 1) (by omega) (by omega) (by omega) h
    · split at h
      · exact tail (k := 2) (by omega) (by omega) (by omega) h
      · split at h
        · exact tail (k := 4) (by omega) (by omega) (by omega) h
        · split at h
          · exact tail (k := 4) (by omega) (by omega) (by omega) h
          · cases h

theorem codewords_ok {i : Input} (n : Nat) : ∀ {p q : Nat} {es : List Word32}, p ≤ i.len + 32 →
    codewords i p n = .ok (es, q) → es.length = n ∧ p ≤ q ∧ q ≤ i.len + 32 := by
  induction n with
  | zero => intro p q es hp h; cases h; simp [hp]
  | succ n ih =>
    intro p q es hp h
    simp only [codewords, bind_ok_iff] at h
    obtain ⟨x, hx, ⟨e, len⟩, hc, ⟨es', q'⟩, hr, hv⟩ := h
    have hp1 := (memRead_ok_iff.1 hx).1.end_le hp
    obtain ⟨h1, -, h2⟩ := codeword_ok hp1 hc
    obtain ⟨h3, h4, h5⟩ := ih h2 hr
    cases hv
    simp; omega

theorem vbraw_ok {i : Input} {a n len : Nat} {es : List Word32} (ha : a + 1 ≤ i.len + 32)
    (h : vbraw i a n = .ok (es, len)) : es.length = n ∧ len = 1 + 4 * n ∧ a + len ≤ i.len + 32 := by
  simp only [vbraw, bind_ok_iff] at h
  obtain ⟨r, hr, hv⟩ := h
  have := (memRead_ok_iff.1 hr).1.end_le ha
  cases hv
  simp; omega

/-- VBDEC answers as many values as asked and ends below the read bound. -/
theorem vbdec_ok {i : Input} {a n len : Nat} {es : List Word32} (ha : a ≤ i.len + 32)
    (h : vbdec i a n = .ok (es, len)) : es.length = n ∧ a + len ≤ i.len + 32 := by
  unfold vbdec at h
  split at h
  · cases h; rename_i h0; simp [h0.1, ha]
  · simp only [bind_ok_iff] at h
    obtain ⟨x, hx, h⟩ := h
    have ha1 := (memRead_ok_iff.1 hx).1.end_le ha
    split at h
    · obtain ⟨h1, -, h2⟩ := vbraw_ok ha1 h; exact ⟨h1, h2⟩
    · simp only [bind_ok_iff] at h
      obtain ⟨⟨es', q⟩, hc, hv⟩ := h
      obtain ⟨h1, h2, h3⟩ := codewords_ok n ha hc
      cases hv
      exact ⟨h1, by omega⟩

theorem overlayOr_length {n b : Nat} (l : List (Word32 × Nat)) : ∀ {v w : List Word32},
    overlayOr n b l v = .ok w → w.length = v.length := by
  induction l with
  | nil => intro v w h; cases h; rfl
  | cons c rest ih =>
    intro v w h
    obtain ⟨e, idx⟩ := c
    simp only [overlayOr] at h
    split at h
    · cases h
    · simpa using ih h

theorem overlayAdd_length {b : Nat} (l : List (Word32 × Nat)) : ∀ {v : List Word32},
    (overlayAdd b l v).length = v.length := by
  induction l with
  | nil => intro v; rfl
  | cons c rest ih => intro v; simp [overlayAdd, ih]

/-- What every block body keeps to: as many values as the block has, at least the header consumed, the end below the read
bound. -/
structure BodyOk (i : Input) (a n : Nat) (r : List Word32 × Nat) : Prop where
  count : r.1.length = n
  pos : 1 ≤ r.2
  bound : a + r.2 ≤ i.len + 32

theorem bp_ok {i : Input} {a n b : Nat} {m : Mode} {r : List Word32 × Nat} (hm : m = .V → n = 256)
    (ha : a + 1 ≤ i.len + 32) (h : bp i a n m b = .ok r) : BodyOk i a n r := by
  simp only [bp, bind_ok_iff] at h
  obtain ⟨⟨v, lm⟩, hu, hv⟩ := h
  obtain ⟨h1, -, h3⟩ := unpackM_ok hm hu
  have := h1.end_le ha
  cases hv
  exact ⟨by simp [h3], by simp, by simp only; omega⟩

theorem const_ok {i : Input} {a n b : Nat} {r : List Word32 × Nat}
    (ha : a + 1 ≤ i.len + 32) (h : const i a n b = .ok r) : BodyOk i a n r := by
  simp only [const, bind_ok_iff] at h
  obtain ⟨c, hc, hv⟩ := h
  have := (memRead_ok_iff.1 hc).1.end_le ha
  cases hv
  exact ⟨by simp, by simp, by simp only; omega⟩

theorem bpvx_ok {i : Input} {a n b : Nat} {m : Mode} {r : List Word32 × Nat} (hm : m = .V → n = 256)
    (ha : a + 1 ≤ i.len + 32) (h : bpvx i a n m b = .ok r) : BodyOk i a n r := by
  simp only [bpvx, bind_ok_iff] at h
  obtain ⟨nex, hn, ⟨v, lm⟩, hu, ⟨e, lv⟩, he, x, hx, w, hw, hv⟩ := h
  have b1 := (memRead_ok_iff.1 hn).1.end_le ha
  obtain ⟨h1, -, h3⟩ := unpackM_ok hm hu
  have b2 := h1.end_le b1
  obtain ⟨-, b3⟩ := vbdec_ok b2 he
  have b4 := (memRead_ok_iff.1 hx).1.end_le b3
  have hl := overlayOr_length _ hw
  cases hv
  exact ⟨by simp [hl, h3], by simp only; omega, by simp only; omega⟩

theorem bpbx_ok {i : Input} {a n b : Nat} {m : Mode} {r : List Word32 × Nat} (hm : m = .V → n = 256)
    (ha : a + 1 ≤ i.len + 32) (h : bpbx i a n m b = .ok r) : BodyOk i a n r := by
  simp only [bpbx, bind_ok_iff] at h
  obtain ⟨bx, hb, h⟩ := h
  have b1 := (memRead_ok_iff.1 hb).1.end_le ha
  split at h
  · cases h
  · simp only [bind_ok_iff] at h
    obtain ⟨bitmap, hbm, ⟨e, lx⟩, he, ⟨v, lm⟩, hu, hv⟩ := h
    have b2 := (memRead_ok_iff.1 hbm).1.end_le b1
    have b3 := (unpackS_ok he).1.end_le b2
    obtain ⟨h1, -, h3⟩ := unpackM_ok hm hu
    have b4 := h1.end_le b3
    cases hv
    exact ⟨by simp [overlayAdd_length, h3], by simp only; omega, by simp only; omega⟩

/-- BLOCK keeps to the same bounds. -/
theorem block_ok {i : Input} {a n : Nat} {m : Mode} {r : List Word32 × Nat} (hm : m = .V → n = 256)
    (ha : a ≤ i.len + 32) (h : block i a n m = .ok r) : BodyOk i a n r := by
  simp only [block, bind_ok_iff] at h
  obtain ⟨x, hx, h⟩ := h
  have b1 := (memRead_ok_iff.1 hx).1.end_le ha
  split at h
  · cases h
  · split at h
    · exact bp_ok hm b1 h
    · split at h
      · exact bpvx_ok hm b1 h
      · split at h
        · exact bpbx_ok hm b1 h
        · exact const_ok b1 h

end Sys2Proof.Machine
end

