-- ==== Sys2Proof/Laws/Effects.lean ====
section
/-! SUPPORT. Everything an instruction, a host access and a step can do, said once. -/

namespace Sys2Proof.Machine

open Sys2Proof.Safety

/-- The next states an instruction can reach. -/
inductive Effect (s : State) : State → Prop where
  /-- START while BUSY: ignored. -/
  | ignored (h : s.runState = .busy) : Effect s s
  /-- The launch step. -/
  | launch (h : s.runState ≠ .busy) (hl : s.inlen.toNat ≤ Config.maxInlen) : Effect s s.enterLaunch
  /-- A fault taken. -/
  | fault (h : s.runState = .busy) (r : Raise) : Effect s (s.takeFault r)
  /-- A block decoded. -/
  | block (h : s.runState = .busy) (hr : 0 < s.remaining) (vs : List Word32) (len : Nat)
      (ok : s.ip.toNat + 1 ≤ s.inlen.toNat + 32 → BodyOk s.input s.ip.toNat s.blockCount (vs, len))
      (hf : s.ip.toNat + 1 ≤ s.inlen.toNat + 32) : Effect s (s.commitBlock vs len s.blockCount)
  /-- A unit or codeword that updated the scratch. -/
  | scratch (h : s.runState = .busy) (sc : Scratch) : Effect s { s with scratch := sc }
  /-- The completion step. -/
  | complete (h : s.runState = .busy) (hd : s.op = s.nval) : Effect s { s with consumed := s.ip, runState := .done }

theorem State.blockMode_V {s : State} : s.blockMode = .V → s.blockCount = 256 := by
  unfold State.blockMode State.blockCount
  split <;> simp

theorem State.blockCount_le (s : State) : s.blockCount ≤ s.remaining := by
  unfold State.blockCount; split <;> omega

theorem State.blockCount_le_256 (s : State) : s.blockCount ≤ 256 := by
  unfold State.blockCount; split <;> omega

/-- A block step: enabled, and it takes a fault or commits what its body answered. -/
theorem blockStep_next {body : Input → Nat → Nat → Mode → Except Raise (List Word32 × Nat)} {s t : State}
    (h : blockStep s body = .next t) :
    s.runState = .busy ∧ 0 < s.remaining ∧
      ((∃ r, (memRead s.input s.ip.toNat 1 = .error r ∨ Readable s.input s.ip.toNat 1 ∧
          body s.input s.ip.toNat s.blockCount s.blockMode = .error r) ∧ t = s.takeFault r) ∨
      ∃ vs len, Readable s.input s.ip.toNat 1 ∧
        body s.input s.ip.toNat s.blockCount s.blockMode = .ok (vs, len) ∧ t = s.commitBlock vs len s.blockCount) := by
  unfold blockStep at h
  split at h
  · rename_i hb
    refine ⟨hb.1, hb.2, ?_⟩
    cases h
    split
    · exact .inl ⟨_, .inl (by assumption), rfl⟩
    · rename_i x hx
      split
      · exact .inl ⟨_, .inr ⟨(memRead_ok_iff.1 hx).1, by assumption⟩, rfl⟩
      · rename_i vs len hok
        exact .inr ⟨vs, len, (memRead_ok_iff.1 hx).1, hok, rfl⟩
  · cases h

/-- A step of a unit or codeword: inside a launch, and it takes a fault or updates the scratch. -/
theorem scratchStep_next {body : Input → Scratch → Except Raise Scratch} {s t : State}
    (h : scratchStep s body = .next t) :
    s.runState = .busy ∧ ((∃ r, body s.input s.scratch = .error r ∧ t = s.takeFault r) ∨
      ∃ sc, body s.input s.scratch = .ok sc ∧ t = { s with scratch := sc }) := by
  unfold scratchStep at h
  split at h
  · rename_i hb
    refine ⟨hb, ?_⟩
    cases h
    split
    · exact .inl ⟨_, by assumption, rfl⟩
    · exact .inr ⟨_, by assumption, rfl⟩
  · cases h

/-- A block step whose body answers, in an enabled state with a readable header. -/
theorem blockStep_of_ok {body : Input → Nat → Nat → Mode → Except Raise (List Word32 × Nat)} {s : State}
    {vs : List Word32} {len : Nat} (he : BlockEnabled s) (hr : HeaderReadable s)
    (h : body s.input s.ip.toNat s.blockCount s.blockMode = .ok (vs, len)) :
    blockStep s body = .next (s.commitBlock vs len s.blockCount) := by
  have hr' : Readable s.input s.ip.toNat 1 := .inr hr
  simp only [blockStep, he.1, he.2, and_self, ite_true, memRead_of_readable hr', h]

/-- A block step whose body raises. -/
theorem blockStep_of_error {body : Input → Nat → Nat → Mode → Except Raise (List Word32 × Nat)} {s : State}
    {r : Raise} (he : BlockEnabled s) (hr : HeaderReadable s)
    (h : body s.input s.ip.toNat s.blockCount s.blockMode = .error r) : blockStep s body = .next (s.takeFault r) := by
  have hr' : Readable s.input s.ip.toNat 1 := .inr hr
  simp only [blockStep, he.1, he.2, and_self, ite_true, memRead_of_readable hr', h]

/-- A block step whose header lies past the read bound. -/
theorem blockStep_of_not_readable {body : Input → Nat → Nat → Mode → Except Raise (List Word32 × Nat)} {s : State}
    (he : BlockEnabled s) (hr : ¬ HeaderReadable s) :
    blockStep s body = .next (s.takeFault (.truncatedInput s.ip.toNat)) := by
  have hr' : ¬ Readable s.input s.ip.toNat 1 := by
    simp only [HeaderReadable] at hr; simp only [Readable, State.input_len]; omega
  simp only [blockStep, he.1, he.2, and_self, ite_true, memRead_of_not_readable hr']

/-- A unit or codeword that answers. -/
theorem scratchStep_of_ok {body : Input → Scratch → Except Raise Scratch} {s : State} {sc : Scratch}
    (he : s.runState = .busy) (h : body s.input s.scratch = .ok sc) :
    scratchStep s body = .next { s with scratch := sc } := by
  simp only [scratchStep, he, ite_true, h]

/-- A unit or codeword that raises. -/
theorem scratchStep_of_error {body : Input → Scratch → Except Raise Scratch} {s : State} {r : Raise}
    (he : s.runState = .busy) (h : body s.input s.scratch = .error r) :
    scratchStep s body = .next (s.takeFault r) := by
  simp only [scratchStep, he, ite_true, h]

/-- A block at `IP` in an enabled state: what BLOCK answers is committed, what it raises is taken (44_stream_driver.md R181,
R182; 60_exceptions.md R196). -/
theorem runBlock_of_enabled {s : State} (he : BlockEnabled s) :
    runBlock s = .next (match block s.input s.ip.toNat s.blockCount s.blockMode with
      | .error r => s.takeFault r
      | .ok (vs, len) => s.commitBlock vs len s.blockCount) := by
  unfold runBlock block
  by_cases h : Readable s.input s.ip.toNat 1
  · have hm := memRead_of_readable h
    rw [hm, ok_bind]
    simp only [runHeader, execIllegalHeader, execBp, execBpvx, execBpbx, execConst, blockStep, he.1, he.2, and_self,
      ite_true, hm]
    split
    · rfl
    · split
      · rfl
      · split
        · rfl
        · split <;> rfl
  · rw [memRead_of_not_readable h, error_bind]

/-- The engine's step where a block is enabled. -/
theorem engineStep_of_enabled {s : State} (he : BlockEnabled s) : engineStep s = runBlock s := by
  have hne : s.op ≠ s.nval := by intro h; have := he.2; simp [State.remaining, h] at this
  simp only [engineStep, he.1, ite_true, State.enabledStep, hne, ite_false]
  split
  · rename_i h; simp [exec, execStepV, he.1, h]
  · rename_i h; simp [exec, execStepS, he.1, he.2, show s.remaining < 256 by omega]

/-- What taking a fault records, changes and keeps (60_exceptions.md R196). -/
theorem takeFault_entry (s : State) (r : Raise) : FaultEntry s (s.takeFault r) r.code r.info := by
  refine ⟨rfl, rfl, rfl, rfl, rfl, rfl, rfl, rfl, rfl, ⟨rfl, rfl, rfl⟩, fun k hk => ?_⟩
  rw [State.takeFault_out, OutMem.read_flood]
  split
  · omega
  · rfl

/-- What taking a fault leaves unspecified is of one draw (60_exceptions.md R196; log entries 5 and 6). -/
theorem takeFault_draw (s : State) (r : Raise) : (s.takeFault r).consumed = Config.freeBits 64 s.draw 0 ∧
    ∀ k < s.nval.toNat, (s.takeFault r).out.read k = Config.freeBits 32 s.draw k := by
  refine ⟨rfl, fun k hk => ?_⟩
  rw [State.takeFault_out, OutMem.read_flood, if_pos hk]

/-- What committing a block of `n` values changes and keeps (44_stream_driver.md R181, R182). -/
theorem commitBlock_advance (s : State) {vs : List Word32} {n : Nat} (len : Nat) (h : vs.length = n) :
    BlockAdvance s (s.commitBlock vs len n) len n := by
  refine ⟨rfl, ⟨rfl, rfl, rfl, rfl, rfl, rfl, rfl⟩, ⟨rfl, rfl, rfl⟩, rfl, rfl, fun k hk => ?_⟩
  rw [State.commitBlock_out, OutMem.read_writeMany]
  split
  · rw [List.getD_eq_default _ _ (by omega)]
  · rfl

/-- The words a committed block placed in `OUT`. -/
theorem commitBlock_read (s : State) (vs : List Word32) (len n p : Nat) (h : p < vs.length) :
    (s.commitBlock vs len n).out.read (s.op.toNat + p) = vs[p] := by
  rw [State.commitBlock_out, OutMem.read_writeMany]
  simp [h]

theorem blockStep_effect {body : Input → Nat → Nat → Mode → Except Raise (List Word32 × Nat)} {s t : State}
    (hbody : ∀ r, s.ip.toNat + 1 ≤ s.inlen.toNat + 32 →
      body s.input s.ip.toNat s.blockCount s.blockMode = .ok r → BodyOk s.input s.ip.toNat s.blockCount r)
    (h : blockStep s body = .next t) : Effect s t := by
  obtain ⟨hb, hr, ⟨r, -, rfl⟩ | ⟨vs, len, hread, hok, rfl⟩⟩ := blockStep_next h
  · exact .fault hb r
  · have hf : s.ip.toNat + 1 ≤ s.inlen.toNat + 32 := by rcases hread with h | h <;> [omega; exact h]
    exact .block hb hr vs len (fun hf => hbody _ hf hok) hf

theorem scratchStep_effect {body : Input → Scratch → Except Raise Scratch} {s t : State}
    (h : scratchStep s body = .next t) : Effect s t := by
  obtain ⟨hb, ⟨r, -, rfl⟩ | ⟨sc, -, rfl⟩⟩ := scratchStep_next h
  · exact .fault hb r
  · exact .scratch hb sc

theorem execBp_effect {b : BitVec 6} {s t : State} (h : execBp b s = .next t) : Effect s t :=
  blockStep_effect (fun _ ha hok => bp_ok s.blockMode_V ha hok) h

theorem execBpvx_effect {b : BitVec 6} {s t : State} (h : execBpvx b s = .next t) : Effect s t :=
  blockStep_effect (fun _ ha hok => bpvx_ok s.blockMode_V ha hok) h

theorem execBpbx_effect {b : BitVec 6} {s t : State} (h : execBpbx b s = .next t) : Effect s t :=
  blockStep_effect (fun _ ha hok => bpbx_ok s.blockMode_V ha hok) h

theorem execConst_effect {b : BitVec 6} {s t : State} (h : execConst b s = .next t) : Effect s t :=
  blockStep_effect (fun _ ha hok => const_ok ha hok) h

theorem execIllegalHeader_effect {x : Byte} {s t : State} (h : execIllegalHeader x s = .next t) : Effect s t :=
  blockStep_effect (fun _ _ hok => by cases hok) h

theorem runBlock_effect {s t : State} (hb : s.runState = .busy) (h : runBlock s = .next t) : Effect s t := by
  unfold runBlock at h
  split at h
  · cases h; exact .fault hb _
  · unfold runHeader at h
    split at h
    · exact execIllegalHeader_effect h
    · split at h
      · exact execBp_effect h
      · split at h
        · exact execBpvx_effect h
        · split at h
          · exact execBpbx_effect h
          · exact execConst_effect h

theorem startLaunch_effect {s t : State} (h : s.startLaunch = .next t) : Effect s t := by
  unfold State.startLaunch at h
  split at h
  · cases h; exact .ignored (by assumption)
  · split at h
    · cases h
    · cases h; exact .launch (by assumption) (by omega)

/-- Everything an instruction can do when it answers a next state. -/
theorem exec_effect {i : Instr} {s t : State} (h : exec i s = .next t) : Effect s t := by
  cases i with
  | bp b => exact execBp_effect h
  | bpvx b => exact execBpvx_effect h
  | bpbx b => exact execBpbx_effect h
  | const b => exact execConst_effect h
  | illegalHeader x => exact execIllegalHeader_effect h
  | vb1 x => unfold exec execVb1 codewordStep at h; exact scratchStep_effect h
  | vb2 x => unfold exec execVb2 codewordStep at h; exact scratchStep_effect h
  | vb3 x => unfold exec execVb3 codewordStep at h; exact scratchStep_effect h
  | vb4 => unfold exec execVb4 codewordStep at h; exact scratchStep_effect h
  | vb5 => unfold exec execVb5 codewordStep at h; exact scratchStep_effect h
  | reservedVbLead x => unfold exec execReservedVbLead codewordStep at h; exact scratchStep_effect h
  | vbraw => unfold exec execVbraw at h; exact scratchStep_effect h
  | unpackS a n b => unfold exec execUnpackS at h; exact scratchStep_effect h
  | unpackV a b => unfold exec execUnpackV at h; exact scratchStep_effect h
  | vbdec a n => unfold exec execVbdec at h; exact scratchStep_effect h
  | launch => exact startLaunch_effect h
  | stepV =>
    simp only [exec, execStepV] at h
    split at h
    · rename_i hb; exact runBlock_effect hb.1 h
    · cases h
  | stepS =>
    simp only [exec, execStepS] at h
    split at h
    · rename_i hb; exact runBlock_effect hb.1 h
    · cases h
  | stepDone =>
    simp only [exec, execStepDone] at h
    split at h
    · rename_i hb; cases h; exact .complete hb.1 hb.2
    · cases h

/-- A run peels off a step that answers. -/
theorem runSteps_succ {s t : State} {k : Nat} (h : step s = .next t) : runSteps (k + 1) s = runSteps k t := by
  simp only [runSteps, h]

/-- The engine has no step outside BUSY, so its state stays (44_stream_driver.md R184). -/
theorem runSteps_of_not_busy {s : State} (h : s.runState ≠ .busy) (ht : s.turns = []) : ∀ k, runSteps k s = .next s
  | 0 => rfl
  | k + 1 => by
    rw [runSteps_succ (t := s), runSteps_of_not_busy h ht k]
    simp only [step, move, ht, engineStep, if_neg h]

/-- The next states a host access can reach. -/
inductive HostEffect (s : State) (a : HostAccess) : State → Prop where
  /-- START, in any state that does not refuse it. -/
  | start {t : State} (h : s.startLaunch = .next t) : HostEffect s a t
  /-- A write that is ignored. -/
  | none : HostEffect s a s
  | setNval (h : s.runState ≠ .busy) (v : Word64) : HostEffect s a { s with nval := v }
  | setInlen (h : s.runState ≠ .busy) (v : Word64) : HostEffect s a { s with inlen := v }
  /-- A read. -/
  | data (v : Word64) (d : Nat) (h : s.draws ≤ d) : HostEffect s a { s with hostData := v, draws := d }
  | placeIn (k : Nat) (v : Byte)
      (h : s.runState = .busy → k < s.inlen.toNat + 32 → v = readIn s.inMem k) :
      HostEffect s a { s with inMem := writeIn s.inMem k v }
  | placeOut (i : Nat) (v : Word32) (h : s.runState = .busy → s.nval.toNat ≤ i) :
      HostEffect s a { s with out := s.out.write i v }
  | reset (h : a = .reset) : HostEffect s a s.doReset

/-- Everything a host access can do when it answers a next state. -/
theorem hostAct_effect {a : HostAccess} {s t : State} (h : hostAct a s = .next t) : HostEffect s a t := by
  cases a with
  | writeReg index v =>
    simp only [hostAct, State.writeReg] at h
    split at h
    · split at h
      · exact .start h
      · cases h; exact .none
    · split at h
      · cases h; exact .none
      · split at h
        · cases h; exact .setNval (by assumption) v
        · split at h
          · cases h; exact .setInlen (by assumption) v
          · cases h; exact .none
  | readReg index => cases h; exact .data _ s.draws (Nat.le_refl _)
  | writeIn addr v =>
    simp only [hostAct] at h
    split at h
    · cases h
    · rename_i hn; cases h
      refine .placeIn _ _ fun h1 h2 => ?_
      by_contra hv; exact hn ⟨h1, h2, hv⟩
  | writeOut index v =>
    simp only [hostAct] at h
    split at h
    · cases h
    · rename_i hn; cases h
      exact .placeOut _ _ fun h1 => by by_contra hv; exact hn ⟨h1, by omega⟩
  | readOut index =>
    simp only [hostAct] at h
    split at h
    · cases h; exact .data _ _ (Nat.le_succ _)
    · cases h; exact .data _ s.draws (Nat.le_refl _)
  | reset => cases h; exact .reset rfl

/-- A step: the host's next access, or the engine's enabled step, or the engine without a step. -/
theorem step_cases {s t : State} (h : step s = .next t) :
    (∃ a rest, s.turns = .host a :: rest ∧ hostAct a { s with turns := rest } = .next t) ∨
      ∃ rest, (s.turns = [] ∧ rest = [] ∨ s.turns = .engine :: rest) ∧
        ((s.runState = .busy ∧ exec ({ s with turns := rest } : State).enabledStep { s with turns := rest } = .next t) ∨
          s.runState ≠ .busy ∧ t = { s with turns := rest }) := by
  unfold step move at h
  split at h
  · rename_i ht
    refine .inr ⟨[], .inl ⟨ht, rfl⟩, ?_⟩
    have hs : ({ s with turns := [] } : State) = s := by rw [← ht]
    rw [hs]
    unfold engineStep at h
    split at h
    · exact .inl ⟨by assumption, h⟩
    · cases h; exact .inr ⟨by assumption, rfl⟩
  · rename_i rest ht
    refine .inr ⟨rest, .inr ht, ?_⟩
    unfold engineStep at h
    split at h
    · exact .inl ⟨by assumption, h⟩
    · cases h; exact .inr ⟨by assumption, rfl⟩
  · rename_i a rest ht
    exact .inl ⟨a, rest, ht, h⟩

end Sys2Proof.Machine
end

