-- ==== Sys2Proof/Laws/Overlay.lean ====
section
/-! SUPPORT. The exception overlays and the block bodies: what each answers, position by position, and where its reads raise. -/

namespace Sys2Proof.Machine

open Sys2Proof.Safety

/-- BPVX's overlay ORs into each position the patches of its indices. -/
theorem overlayOr_spec {n b : Nat} (l : List (Word32 × Nat)) : ∀ (v : List Word32), (∀ c ∈ l, c.2 < n) → v.length = n →
    ∃ w, overlayOr n b l v = .ok w ∧ w.length = n ∧ ∀ p < n, w.getD p 0 = v.getD p 0 ||| orPatches b p l := by
  induction l with
  | nil => intro v _ hv; exact ⟨v, rfl, hv, by simp [orPatches]⟩
  | cons c rest ih =>
    intro v hc hv
    obtain ⟨e, idx⟩ := c
    have h1 : idx < n := hc (e, idx) (by simp)
    obtain ⟨w, hw, hl, hp⟩ := ih (v.modify idx fun w => w ||| patch e b) (fun c h => hc c (by simp [h])) (by simpa)
    refine ⟨w, by simp [overlayOr, show ¬ n ≤ idx by omega, hw], hl, fun p h => ?_⟩
    rw [hp p h]
    simp only [orPatches, List.getD_eq_getElem?_getD, List.getElem?_modify]
    by_cases hip : idx = p
    · subst hip
      simp [show idx < v.length by omega, BitVec.or_assoc]
    · simp [hip]

/-- BPVX's overlay raises for the first index `>= n` and for nothing else (43_pfor_block.md R154). -/
theorem overlayOr_error_iff {n b : Nat} {r : Raise} (l : List (Word32 × Nat)) : ∀ (v : List Word32), overlayOr n b l v = .error r ↔
    ∃ k, ∃ hk : k < l.length, r = .exceptionMismatch l[k].2 ∧ n ≤ l[k].2 ∧ ∀ j (hj : j < k), l[j].2 < n := by
  induction l with
  | nil => intro v; simp [overlayOr]
  | cons c l ih =>
    intro v
    obtain ⟨e, i⟩ := c
    by_cases hi : n ≤ i
    · simp only [overlayOr, hi, ite_true, Except.error.injEq]
      refine ⟨fun h => ⟨0, by simp, by simpa using h.symm, by simpa using hi, by simp⟩, fun ⟨k, _, hr, _, hlt⟩ => ?_⟩
      cases k with
      | zero => simpa using hr.symm
      | succ k => exact absurd (hlt 0 (by omega)) (by simpa using hi)
    · simp only [overlayOr, hi, ite_false, ih]
      constructor
      · rintro ⟨k, hk, hr, hn, hlt⟩
        refine ⟨k + 1, by simpa using hk, by simpa using hr, by simpa using hn, fun j hj => ?_⟩
        cases j with
        | zero => simpa using hi
        | succ j => simpa using hlt j (by omega)
      · rintro ⟨k, hk, hr, hn, hlt⟩
        cases k with
        | zero => exact absurd (by simpa using hn) hi
        | succ k => exact ⟨k, by simpa using hk, by simpa using hr, by simpa using hn, fun j hj => by simpa using hlt (j + 1) (by omega)⟩

/-- BPBX's overlay adds to each listed position its own patch, the positions being distinct. -/
theorem overlayAdd_spec (b : Nat) (pos : List Nat) : ∀ (es v : List Word32), pos.Nodup → es.length = pos.length →
    ∀ p < v.length, (overlayAdd b (es.zip pos) v).getD p 0 =
      v.getD p 0 + if p ∈ pos then patch (es.getD (pos.idxOf p) 0) b else 0 := by
  induction pos with
  | nil => intro es v _ _ p _; simp [overlayAdd]
  | cons q rest ih =>
    intro es v hn hl p hp
    cases es with
    | nil => simp at hl
    | cons e es =>
      obtain ⟨hq, hr⟩ := List.nodup_cons.1 hn
      simp only [List.zip_cons_cons, overlayAdd]
      rw [ih es _ hr (by simpa using hl) p (by simpa)]
      simp only [List.getD_eq_getElem?_getD, List.getElem?_modify, List.mem_cons]
      by_cases hpq : q = p
      · subst hpq
        simp [hq, hp]
      · have : p ≠ q := fun h => hpq h.symm
        simp only [this, false_or, hpq, ite_false]
        rw [List.idxOf_cons_ne _ hpq]
        simp

/-- The rank of a set position among the set positions. -/
theorem idxOf_filter_range (f : Nat → Bool) (n p : Nat) (hp : p < n) (hf : f p = true) :
    ((List.range n).filter f).idxOf p = (List.range p).countP f := by
  induction n with
  | zero => omega
  | succ n ih =>
    rw [List.range_succ, List.filter_append]
    by_cases h : p < n
    · rw [List.idxOf_append_of_mem (by simp [h, hf]), ih h]
    · have : p = n := by omega
      subst this
      rw [List.idxOf_append_of_notMem (by simp)]
      simp [hf, List.countP_eq_length_filter]

/-- Byte `k` of a read is the byte of `IN`. -/
theorem byte_of_read (i : Input) (q n k : Nat) (h : k < n) :
    (le (i.bytesAt q n) >>> (8 * k)) &&& 0xFF = (readIn i.bytes (q + k)).toNat := by
  apply Nat.eq_of_testBit_eq
  intro j
  rw [show 0xFF = mask 8 from rfl, and_mask_testBit, Nat.testBit_shiftRight, BitVec.testBit_toNat]
  by_cases hj : j < 8
  · rw [le_bytesAt_testBit _ _ _ _ (by omega)]
    simp only [hj, decide_true, Bool.true_and, streamBit]
    rw [show (8 * k + j) / 8 = k by omega, show (8 * k + j) % 8 = j by omega]
  · simp [hj, BitVec.getLsbD_of_ge, show 8 ≤ j by omega]

/-- BPVX where every read stays below the bound and every index is below `n`. -/
theorem bpvx_of_readable {i : Input} {a n b lv : Nat} {m : Mode} {e : List Word32} (hm : m = .V → n = 256)
    (h1 : Readable i (a + 1) 1) (h2 : Readable i (a + 2) (mainLen n b m))
    (hv : vbdec i (a + 2 + mainLen n b m) (readIn i.bytes (a + 1)).toNat = .ok (e, lv))
    (hq : Readable i (a + 2 + mainLen n b m + lv) (readIn i.bytes (a + 1)).toNat)
    (hidx : ∀ k < (readIn i.bytes (a + 1)).toNat, (readIn i.bytes (a + 2 + mainLen n b m + lv + k)).toNat < n) :
    ∃ w, bpvx i a n m b = .ok (w, 2 + mainLen n b m + lv + (readIn i.bytes (a + 1)).toNat) ∧ w.length = n ∧
      ∀ p < n, w.getD p 0 = mainValue i (a + 2) b p m ||| orPatches b p (e.zip ((List.range
        (readIn i.bytes (a + 1)).toNat).map fun k => (readIn i.bytes (a + 2 + mainLen n b m + lv + k)).toNat)) := by
  have hnex := memRead_one (i := i) (a := a + 1) (by rcases h1 with h | h <;> omega)
  generalize (readIn i.bytes (a + 1)).toNat = nex at *
  have hbytes : ((List.range nex).map fun k => (le (i.bytesAt (a + 2 + mainLen n b m + lv) nex) >>> (8 * k)) &&& 0xFF) =
      (List.range nex).map fun k => (readIn i.bytes (a + 2 + mainLen n b m + lv + k)).toNat :=
    List.map_congr_left fun k hk => byte_of_read _ _ _ _ (List.mem_range.1 hk)
  obtain ⟨w, hw, hl, hp⟩ := overlayOr_spec (n := n) (b := b) (e.zip ((List.range nex).map fun k =>
    (readIn i.bytes (a + 2 + mainLen n b m + lv + k)).toNat)) ((List.range n).map (mainValue i (a + 2) b · m))
    (fun c hc => by
      obtain ⟨k, hk, h⟩ := List.mem_map.1 (List.of_mem_zip hc).2
      rw [← h]
      exact hidx k (List.mem_range.1 hk)) (by simp)
  refine ⟨w, ?_, hl, fun p hpn => ?_⟩
  · simp only [bpvx, hnex, ok_bind, unpackM_of_readable hm h2, hv, memRead_of_readable hq, hbytes, hw]
  · have := hp p hpn
    simpa [hpn] using this

section bpbx
variable {i : Input} {a n b : Nat} {m : Mode}

/-- The set positions of a bitmap that was read. -/
theorem bitmapPositions_read (i : Input) (a n : Nat) :
    bitmapPositions (le (i.bytesAt a ((n + 7) / 8))) n = (List.range n).filter (streamBit i a) :=
  List.filter_congr fun p hp => le_bytesAt_testBit _ _ _ _ (by have := List.mem_range.1 hp; omega)

theorem length_bitmap_filter (i : Input) (a n : Nat) :
    ((List.range n).filter (streamBit i a)).length = bitmapRank i a n := (List.countP_eq_length_filter ..).symm

theorem bpbx_nex_past (h : ¬ Readable i (a + 1) 1) : bpbx i a n m b = .error (.truncatedInput (a + 1)) := by
  simp only [bpbx, memRead_of_not_readable h, error_bind]

theorem bpbx_wide_bx (h1 : Readable i (a + 1) 1) (h : 32 < (readIn i.bytes (a + 1)).toNat) :
    bpbx i a n m b = .error (.invalidBitWidth (256 + (readIn i.bytes (a + 1)).toNat)) := by
  simp only [bpbx, memRead_one (i := i) (a := a + 1) (by rcases h1 with h | h <;> omega), ok_bind, h, ite_true]
  have := Nat.two_pow_add_eq_or_of_lt (readIn i.bytes (a + 1)).isLt 1
  simp only [Nat.reducePow, Nat.mul_one] at this
  rw [this]

/-- BPBX after a legal `bx`: the bitmap, the exception values, the main payload. -/
theorem bpbx_eq (h1 : Readable i (a + 1) 1) (hb : (readIn i.bytes (a + 1)).toNat ≤ 32) :
    bpbx i a n m b = (do
      let bitmap ← memRead i (a + 2) ((n + 7) / 8)
      let pos := bitmapPositions bitmap n
      let (e, lx) ← unpackS i (a + 2 + (n + 7) / 8) pos.length (readIn i.bytes (a + 1)).toNat
      let (v, lm) ← unpackM i (a + 2 + (n + 7) / 8 + lx) n b m
      .ok (overlayAdd b (e.zip pos) v, 2 + (n + 7) / 8 + lx + lm)) := by
  simp only [bpbx, memRead_one (i := i) (a := a + 1) (by rcases h1 with h | h <;> omega), ok_bind,
    show ¬ 32 < (readIn i.bytes (a + 1)).toNat by omega, ite_false, cdiv_eight]

theorem bpbx_bitmap_past (h1 : Readable i (a + 1) 1) (hb : (readIn i.bytes (a + 1)).toNat ≤ 32)
    (h : ¬ Readable i (a + 2) ((n + 7) / 8)) : bpbx i a n m b = .error (.truncatedInput (a + 2)) := by
  rw [bpbx_eq h1 hb, memRead_of_not_readable h, error_bind]

theorem bpbx_exceptions_past (h1 : Readable i (a + 1) 1) (hb : (readIn i.bytes (a + 1)).toNat ≤ 32)
    (h2 : Readable i (a + 2) ((n + 7) / 8))
    (h : ¬ Readable i (a + 2 + (n + 7) / 8) ((bitmapRank i (a + 2) n * (readIn i.bytes (a + 1)).toNat + 7) / 8)) :
    bpbx i a n m b = .error (.truncatedInput (a + 2 + (n + 7) / 8)) := by
  rw [bpbx_eq h1 hb, memRead_of_readable h2, ok_bind]
  simp only [bitmapPositions_read, length_bitmap_filter]
  rw [unpackS_of_not_readable h, error_bind]

theorem bpbx_main_past (h1 : Readable i (a + 1) 1) (hb : (readIn i.bytes (a + 1)).toNat ≤ 32)
    (h2 : Readable i (a + 2) ((n + 7) / 8))
    (h3 : Readable i (a + 2 + (n + 7) / 8) ((bitmapRank i (a + 2) n * (readIn i.bytes (a + 1)).toNat + 7) / 8))
    (h : ¬ Readable i (a + 2 + (n + 7) / 8 + (bitmapRank i (a + 2) n * (readIn i.bytes (a + 1)).toNat + 7) / 8)
      (mainLen n b m)) :
    bpbx i a n m b = .error (.truncatedInput
      (a + 2 + (n + 7) / 8 + (bitmapRank i (a + 2) n * (readIn i.bytes (a + 1)).toNat + 7) / 8)) := by
  rw [bpbx_eq h1 hb, memRead_of_readable h2, ok_bind]
  simp only [bitmapPositions_read, length_bitmap_filter]
  rw [unpackS_of_readable h3, ok_bind]
  simp only
  rw [unpackM_of_not_readable h, error_bind]

/-- BPBX where every read stays below the bound. -/
theorem bpbx_of_readable (hm : m = .V → n = 256) (h1 : Readable i (a + 1) 1)
    (hb : (readIn i.bytes (a + 1)).toNat ≤ 32) (h2 : Readable i (a + 2) ((n + 7) / 8))
    (h3 : Readable i (a + 2 + (n + 7) / 8) ((bitmapRank i (a + 2) n * (readIn i.bytes (a + 1)).toNat + 7) / 8))
    (h4 : Readable i (a + 2 + (n + 7) / 8 + (bitmapRank i (a + 2) n * (readIn i.bytes (a + 1)).toNat + 7) / 8)
      (mainLen n b m)) :
    ∃ w, bpbx i a n m b = .ok (w, 2 + (n + 7) / 8 + (bitmapRank i (a + 2) n * (readIn i.bytes (a + 1)).toNat + 7) / 8
        + mainLen n b m) ∧ w.length = n ∧
      ∀ p < n, w.getD p 0 =
        mainValue i (a + 2 + (n + 7) / 8 + (bitmapRank i (a + 2) n * (readIn i.bytes (a + 1)).toNat + 7) / 8) b p m +
        if streamBit i (a + 2) p then
          patch (scalarValue i (a + 2 + (n + 7) / 8) (readIn i.bytes (a + 1)).toNat (bitmapRank i (a + 2) p)) b
        else 0 := by
  have hlen := length_bitmap_filter i (a + 2) n
  rw [bpbx_eq h1 hb, memRead_of_readable h2, ok_bind]
  simp only [bitmapPositions_read, hlen]
  rw [unpackS_of_readable h3, ok_bind]
  simp only
  rw [unpackM_of_readable hm h4, ok_bind]
  refine ⟨_, rfl, by simp [overlayAdd_length], fun p hp => ?_⟩
  rw [overlayAdd_spec _ _ _ _ (List.Nodup.filter _ List.nodup_range) (by simp [hlen]) _ (by simpa)]
  by_cases hs : streamBit i (a + 2) p = true
  · have hr : (List.range p).countP (streamBit i (a + 2)) < (List.range n).countP (streamBit i (a + 2)) := by
      have h0 : (List.range (p + 1)).countP (streamBit i (a + 2)) ≤ (List.range n).countP (streamBit i (a + 2)) :=
        (List.range_sublist.2 hp).countP_le
      rw [List.range_succ, List.countP_append] at h0
      simpa [hs] using h0
    simp [hp, hs, idxOf_filter_range (streamBit i (a + 2)) n p hp hs, bitmapRank, hr]
  · simp [hp, hs]

/-- BPBX answers only where every read stays below the bound and `bx` is legal. -/
theorem bpbx_ok_readable {r : List Word32 × Nat} (h : bpbx i a n m b = .ok r) :
    Readable i (a + 1) 1 ∧ (readIn i.bytes (a + 1)).toNat ≤ 32 ∧ Readable i (a + 2) ((n + 7) / 8) ∧
      Readable i (a + 2 + (n + 7) / 8) ((bitmapRank i (a + 2) n * (readIn i.bytes (a + 1)).toNat + 7) / 8) ∧
      Readable i (a + 2 + (n + 7) / 8 + (bitmapRank i (a + 2) n * (readIn i.bytes (a + 1)).toNat + 7) / 8)
        (mainLen n b m) := by
  by_cases h1 : Readable i (a + 1) 1
  · by_cases hb : (readIn i.bytes (a + 1)).toNat ≤ 32
    · by_cases h2 : Readable i (a + 2) ((n + 7) / 8)
      · by_cases h3 : Readable i (a + 2 + (n + 7) / 8) ((bitmapRank i (a + 2) n * (readIn i.bytes (a + 1)).toNat + 7) / 8)
        · by_cases h4 : Readable i (a + 2 + (n + 7) / 8 +
            (bitmapRank i (a + 2) n * (readIn i.bytes (a + 1)).toNat + 7) / 8) (mainLen n b m)
          · exact ⟨h1, hb, h2, h3, h4⟩
          · rw [bpbx_main_past h1 hb h2 h3 h4] at h; cases h
        · rw [bpbx_exceptions_past h1 hb h2 h3] at h; cases h
      · rw [bpbx_bitmap_past h1 hb h2] at h; cases h
    · rw [bpbx_wide_bx h1 (by omega)] at h; cases h
  · rw [bpbx_nex_past h1] at h; cases h

end bpbx

/-- A main value is below `2^b`. -/
theorem mainValue_lt (i : Input) (a b p : Nat) (m : Mode) : (mainValue i a b p m).toNat < 2 ^ b := by
  cases m <;> simp only [mainValue, laneValue, scalarValue, BitVec.toNat_ofNat] <;>
    exact lt_of_le_of_lt (Nat.mod_le _ _) (bitsValue_lt _ _)

/-- Adding a patch to a value below `2^b` carries nothing (43_pfor_block.md R158). -/
theorem add_patch_eq_or (x e : Word32) (b : Nat) (hx : x.toNat < 2 ^ b) : x + patch e b = x ||| patch e b := by
  apply BitVec.add_eq_or_of_and_eq_zero
  apply BitVec.eq_of_toNat_eq
  rw [BitVec.toNat_and]
  apply Nat.eq_of_testBit_eq
  intro j
  simp only [Nat.testBit_and, patch, BitVec.toNat_ofNat, Nat.testBit_mod_two_pow, Nat.testBit_mul_two_pow]
  by_cases hj : j < b
  · simp [show ¬ b ≤ j by omega]
  · have : x.toNat.testBit j = false :=
      Nat.testBit_lt_two_pow (lt_of_lt_of_le hx (Nat.pow_le_pow_right (by omega) (by omega)))
    simp [this]

/-- CONST's value: the mask for `b < 32` and none for `b = 32` both keep the low `b` bits (43_pfor_block.md R153). -/
theorem const_of_readable {i : Input} {a n b : Nat} (hb : b ≤ 32) (h : Readable i (a + 1) ((b + 7) / 8)) :
    const i a n b = .ok (List.replicate n (BitVec.ofNat 32 (bitsValue (streamBit i (a + 1)) b)), 1 + (b + 7) / 8) := by
  simp only [const, cdiv_eight, memRead_of_readable h, ok_bind]
  have hm : BitVec.ofNat 32 (if b < 32 then le (i.bytesAt (a + 1) ((b + 7) / 8)) &&& mask b
      else le (i.bytesAt (a + 1) ((b + 7) / 8))) = BitVec.ofNat 32 (le (i.bytesAt (a + 1) ((b + 7) / 8)) &&& mask b) := by
    split
    · rfl
    · have hb' : b = 32 := by omega
      rw [hb', show mask 32 = 2 ^ 32 - 1 from rfl, Nat.and_two_pow_sub_one_eq_mod]
      apply BitVec.eq_of_toNat_eq
      simp only [BitVec.toNat_ofNat, Nat.mod_mod]
  have hs := slice_eq_bitsValue (le (i.bytesAt (a + 1) ((b + 7) / 8))) b 0
  simp only [Nat.zero_mul, Nat.shiftRight_zero, Nat.zero_add] at hs
  rw [hm, hs, bitsValue_congr fun j hj => le_bytesAt_testBit _ _ _ _ (by omega)]

end Sys2Proof.Machine
end

