-- ==== Sys2Proof/Laws/Vb.lean ====
section
/-! SUPPORT. VBDEC and its codewords: raw words, multi-byte reads, one codeword as a step, the scratch they write. -/

namespace Sys2Proof.Machine

open Sys2Proof.Safety

/-- What filling a register array from a list leaves at each place. -/
@[simp] theorem getElem_fill {α : Type} {n : Nat} (v : Vector α n) (l : List α) (k : Nat) (h : k < n) :
    (fill v l)[k] = l.getD k v[k] := by
  simp [fill]

theorem le_bytesAt_two (i : Input) (a : Nat) :
    le (i.bytesAt a 2) = (readIn i.bytes a).toNat + (readIn i.bytes (a + 1)).toNat * 2 ^ 8 := by
  simp [Input.bytesAt, List.range_succ, le]; omega

theorem le_bytesAt_four (i : Input) (a : Nat) :
    le (i.bytesAt a 4) = (readIn i.bytes a).toNat + (readIn i.bytes (a + 1)).toNat * 2 ^ 8
      + (readIn i.bytes (a + 2)).toNat * 2 ^ 16 + (readIn i.bytes (a + 3)).toNat * 2 ^ 24 := by
  simp [Input.bytesAt, List.range_succ, le]; omega

/-- A four-byte read is the little-endian word. -/
theorem ofNat_le_bytesAt_four (i : Input) (a : Nat) : BitVec.ofNat 32 (le (i.bytesAt a 4)) = leWord i a := by
  rw [le_bytesAt_four, leWord]; congr 1; omega

/-- Word `k` of a raw read is the little-endian word at its address. -/
theorem leWord_of_read (i : Input) (q n k : Nat) (h : k < n) :
    BitVec.ofNat 32 ((le (i.bytesAt q (4 * n)) >>> (32 * k)) &&& 0xFFFFFFFF) = leWord i (q + 4 * k) := by
  rw [← ofNat_le_bytesAt_four]
  congr 1
  apply Nat.eq_of_testBit_eq
  intro j
  rw [show 0xFFFFFFFF = mask 32 from rfl, and_mask_testBit, Nat.testBit_shiftRight]
  by_cases hj : j < 32
  · rw [le_bytesAt_testBit _ _ _ _ (by omega), le_bytesAt_testBit _ _ _ _ (by omega)]
    simp only [hj, decide_true, Bool.true_and, streamBit]
    rw [show (32 * k + j) / 8 = 4 * k + j / 8 by omega, show (32 * k + j) % 8 = j % 8 by omega, Nat.add_assoc]
  · have := le_lt (i.bytesAt (q + 4 * k) 4)
    simp only [Input.length_bytesAt] at this
    rw [Nat.testBit_lt_two_pow (lt_of_lt_of_le this (Nat.pow_le_pow_right (by omega) (by omega)))]
    simp [hj]

/-- VBRAW where its words stay below the bound. -/
theorem vbraw_of_readable {i : Input} {a n : Nat} (h : Readable i (a + 1) (4 * n)) :
    vbraw i a n = .ok ((List.range n).map fun k => leWord i (a + 1 + 4 * k), 1 + 4 * n) := by
  simp only [vbraw, memRead_of_readable h, ok_bind]
  congr 2
  exact List.map_congr_left fun k hk => leWord_of_read _ _ _ _ (List.mem_range.1 hk)

/-- A whole run recorded in the scratch. -/
theorem putRun_recorded (s : State) (a : Nat) (n : BitVec 9) (es : List Word32) (len : Nat) :
    RunRecorded s { s with scratch := ({ s.scratch with nex := n } : Scratch).putRun a es len } a n es len :=
  ⟨rfl, fun k h => by simp [Scratch.putRun]⟩

/-- One codeword as a step, by its lead byte: what the codeword of VBDEC answers is recorded, what it raises is taken. -/
theorem exec_decodeVbLead {s : State} {x : Byte} (hb : s.runState = .busy)
    (hr : Readable s.input s.scratch.vp.toNat 1) :
    exec (decodeVbLead x) s = .next (match codeword s.input s.scratch.vp.toNat x with
      | .error r => s.takeFault r
      | .ok (e, len) => { s with scratch := s.scratch.pushValue e len }) := by
  unfold decodeVbLead codeword
  have h0 := memRead_of_readable hr
  split
  · simp only [exec, execVb1, codewordStep, scratchStep, if_pos hb, h0, ok_bind]
  split
  · simp only [exec, execVb2, codewordStep, scratchStep, if_pos hb, h0, ok_bind]
    cases vb2 s.input s.scratch.vp.toNat x <;> rfl
  split
  · simp only [exec, execVb3, codewordStep, scratchStep, if_pos hb, h0, ok_bind]
    cases vb3 s.input s.scratch.vp.toNat x <;> rfl
  split
  · simp only [exec, execVb4, codewordStep, scratchStep, if_pos hb, h0, ok_bind]
    cases vb4 s.input s.scratch.vp.toNat <;> rfl
  split
  · simp only [exec, execVb5, codewordStep, scratchStep, if_pos hb, h0, ok_bind]
    cases vb5 s.input s.scratch.vp.toNat <;> rfl
  · simp only [exec, execReservedVbLead, codewordStep, scratchStep, if_pos hb, h0, ok_bind, error_bind]

/-- A codeword whose lead byte lies past the bound. -/
theorem codewordStep_of_not_readable {s : State} {body : Input → Nat → Except Raise (Word32 × Nat)}
    (hb : s.runState = .busy) (hr : ¬ Readable s.input s.scratch.vp.toNat 1) :
    codewordStep s body = .next (s.takeFault (.truncatedInput s.scratch.vp.toNat)) := by
  simp only [codewordStep, scratchStep, if_pos hb, memRead_of_not_readable hr, error_bind]

end Sys2Proof.Machine
end

