-- ==== Sys2Proof/Tests/Slice0.lean ====
section
/-! SUPPORT. Own tests: ill-formed terms, opcode bytes written out from 30_encoding.md, vectors of 95_test_vectors.md one step each, and a witness for the hypotheses of every statement. -/

namespace Sys2Proof.Tests

open Sys2Proof.Machine Sys2Proof.Safety

set_option Elab.async false

/-! ## Well-formedness: each check refuses -/

theorem test_wf_bp_width : (Instr.bp 33).wf = false := by decide
theorem test_wf_bpvx_width : (Instr.bpvx 33).wf = false := by decide
theorem test_wf_bpbx_width : (Instr.bpbx 63).wf = false := by decide
theorem test_wf_const_width : (Instr.const 33).wf = false := by decide
theorem test_wf_illegalHeader_legal : (Instr.illegalHeader 0x60).wf = false := by decide
theorem test_wf_vb1_range : (Instr.vb1 177).wf = false := by decide
theorem test_wf_vb2_range : (Instr.vb2 176).wf = false ∧ (Instr.vb2 241).wf = false := by decide
theorem test_wf_vb3_range : (Instr.vb3 240).wf = false ∧ (Instr.vb3 249).wf = false := by decide
theorem test_wf_reservedVbLead_range : (Instr.reservedVbLead 250).wf = false := by decide
theorem test_wf_unpackS_count : (Instr.unpackS 0 257 1).wf = false := by decide
theorem test_wf_unpackS_width : (Instr.unpackS 0 256 33).wf = false := by decide
theorem test_wf_unpackV_width : (Instr.unpackV 0 33).wf = false := by decide
theorem test_wf_vbdec_count : (Instr.vbdec 0 256).wf = false := by decide

/-! ## Decoding: opcode bytes bit by bit from 30_encoding.md R82, R89 and R97 -/

theorem test_decode_bp : decodeByte .header 0b00_000111 = .bp 7 ∧ decodeByte .header 0b00_100000 = .bp 32 := by decide
theorem test_decode_bpvx : decodeByte .header 0b01_000100 = .bpvx 4 ∧ decodeByte .header 0b01_100000 = .bpvx 32 := by decide
theorem test_decode_bpbx : decodeByte .header 0b10_000100 = .bpbx 4 ∧ decodeByte .header 0b10_100000 = .bpbx 32 := by decide
theorem test_decode_const : decodeByte .header 0b11_001000 = .const 8 ∧ decodeByte .header 0b11_100000 = .const 32 := by decide
theorem test_decode_illegal : decodeByte .header 0b00_100001 = .illegalHeader 0x21 ∧
    decodeByte .header 0b11_111111 = .illegalHeader 0xFF := by decide
theorem test_decode_vb1 : decodeByte .runFirst 0x00 = .vb1 0 ∧ decodeByte .vbLead 0xB0 = .vb1 176 := by decide
theorem test_decode_vb2 : decodeByte .runFirst 0xB1 = .vb2 177 ∧ decodeByte .vbLead 0xF0 = .vb2 240 := by decide
theorem test_decode_vb3 : decodeByte .runFirst 0xF1 = .vb3 241 ∧ decodeByte .vbLead 0xF8 = .vb3 248 := by decide
theorem test_decode_vb4_vb5 : decodeByte .vbLead 0xF9 = .vb4 ∧ decodeByte .runFirst 0xFA = .vb5 := by decide
theorem test_decode_reserved : decodeByte .runFirst 0xFB = .reservedVbLead 251 ∧
    decodeByte .vbLead 0xFF = .reservedVbLead 255 := by decide
theorem test_decode_vbraw : decodeByte .runFirst 0xFF = .vbraw := by decide
theorem test_decode_rest : decode .header [0x07, 0xAA] = .ok (.bp 7, [0xAA]) ∧
    decode .vbLead [] = .error .endOfInput := ⟨rfl, rfl⟩
theorem test_decodeTableWord : decodeTableWord 8 0xC8 = some (.const 8) ∧ decodeTableWord 8 0x7F = some (.illegalHeader 0x7F) ∧
    decodeTableWord 0 0 = none := by decide
theorem test_encodeVb_boundaries : [0, 176, 177, 16560, 16561, 540848, 540849, 16777215, 16777216, 4294967295].map encodeVb =
    [[0x00], [0xB0], [0xB1, 0x00], [0xF0, 0xFF], [0xF1, 0x00, 0x00], [0xF8, 0xFF, 0xFF], [0xF9, 0xB1, 0x40, 0x08],
      [0xF9, 0xFF, 0xFF, 0xFF], [0xFA, 0x00, 0x00, 0x00, 0x01], [0xFA, 0xFF, 0xFF, 0xFF, 0xFF]] := by decide

/-! ## States and what is read off a result -/

/-- `IN` holding bytes from an address on. -/
def cells (a : Nat) (bytes : List Nat) : List Host.Cell :=
  (((List.range bytes.length).map (a + ·)).zip (bytes.map (BitVec.ofNat 8))).filter fun c => c.2 ≠ 0

/-- A launch in progress. -/
def launched (nval inlen : Nat) (bytes : List Nat) : State :=
  { State.reset with runState := .busy, nval := BitVec.ofNat 64 nval, inlen := BitVec.ofNat 64 inlen, inMem := cells 0 bytes }

/-- The state read off a result. -/
def got {α : Type} (f : State → α) : Host.Outcome State Fault Refusal → Option α
  | .next t => some (f t)
  | .fault _ => none
  | .refused _ => none

/-- The first `k` words of `OUT`, and both cursors. -/
def blockOut (k : Nat) (r : Host.Outcome State Fault Refusal) : Option (List Nat × Nat × Nat) :=
  got (fun t => ((List.range k).map fun p => (t.out.read p).toNat, t.ip.toNat, t.op.toNat)) r

/-- STATE, ECAUSE, EIP, EOP, EINFO. -/
def faultRegs (r : Host.Outcome State Fault Refusal) : Option (RunState × List Nat) :=
  got (fun t => (t.runState, [t.ecause.toNat, t.eip.toNat, t.eop.toNat, t.einfo.toNat])) r

/-- The first `k` exception values, then `i` and `p`. -/
def vbRegs (k : Nat) (r : Host.Outcome State Fault Refusal) : Option (List Nat × Nat × Nat) :=
  got (fun t => ((t.scratch.ex.toList.take k).map BitVec.toNat, t.scratch.vi.toNat, t.scratch.vp.toNat)) r

/-- The first `k` unpacked values and the length. -/
def unpacked (k : Nat) (r : Host.Outcome State Fault Refusal) : Option (List Nat × Nat) :=
  got (fun t => ((t.scratch.v.toList.take k).map BitVec.toNat, t.scratch.len.toNat)) r

/-! ## Block instructions: vectors S1 to S5, B, W2 of 95_test_vectors.md -/

theorem test_bp_S1 : blockOut 4 (exec (.bp 7) (launched 4 5 [0x07, 0xAA, 0x9C, 0xF6, 0x0E])) =
    some ([42, 57, 90, 119], 5, 4) := by decide +kernel
theorem test_bp_B8 : blockOut 3 (exec (.bp 3) (launched 3 3 [0x03, 0xC1, 0x01])) = some ([1, 0, 7], 3, 3) := by decide +kernel
theorem test_const_B3 : blockOut 2 (exec (.const 31) (launched 2 5 [0xDF, 0xFF, 0xFF, 0xFF, 0xFF])) =
    some ([0x7FFFFFFF, 0x7FFFFFFF], 5, 2) := by decide +kernel
theorem test_const_B2 : blockOut 3 (exec (.const 32) (launched 3 5 [0xE0, 0x78, 0x56, 0x34, 0x12])) =
    some ([0x12345678, 0x12345678, 0x12345678], 5, 3) := by decide +kernel
theorem test_bpvx_S4 : blockOut 12 (exec (.bpvx 4)
      (launched 12 11 [0x44, 0x01, 0x97, 0x43, 0x15, 0x73, 0x13, 0x62, 0xB3, 0x0E, 0x0B])) =
    some ([7, 9, 3, 4, 5, 1, 3, 7, 3, 1, 2, 11254], 11, 12) := by decide +kernel
theorem test_bpvx_B18_repeated_index : blockOut 4 (exec (.bpvx 4) (launched 4 8 [0x44, 0x02, 0x97, 0x43, 0x01, 0x01, 0x03, 0x03])) =
    some ([7, 9, 3, 20], 8, 4) := by decide +kernel
theorem test_bpbx_S5 : blockOut 12 (exec (.bpbx 4)
      (launched 12 14 [0x84, 0x1A, 0x00, 0x08, 0x2C, 0xF7, 0xAC, 0x02, 0x97, 0x43, 0x15, 0x73, 0x13, 0xE2])) =
    some ([7, 9, 3, 4, 5, 1, 3, 7, 3, 1, 2, 718238414], 14, 12) := by decide +kernel
theorem test_bpbx_B24_partial_bitmap_byte : blockOut 12 (exec (.bpbx 2)
      (launched 12 8 [0x82, 0x03, 0x21, 0xF0, 0x1D, 0x1B, 0x00, 0x00])) =
    some ([23, 2, 1, 0, 0, 12, 0, 0, 0, 0, 0, 0], 8, 12) := by decide +kernel

/-! ## Faults: vectors B10, B12, B16, B22, P5, V21, V26 -/

theorem test_illegalHeader_B10 : faultRegs (exec (.illegalHeader 0xFF) (launched 1 1 [0xFF])) =
    some (.error, [2, 0, 0, 63]) := by decide
theorem test_bpbx_B12_wide_bx : faultRegs (exec (.bpbx 4) (launched 4 3 [0x84, 0x21, 0x00])) =
    some (.error, [2, 0, 0, 0x121]) := by decide +kernel
theorem test_stepS_B16_bad_index : faultRegs (exec .stepS (launched 4 6 [0x44, 0x01, 0x97, 0x43, 0x05, 0x04])) =
    some (.error, [3, 0, 0, 4]) := by decide +kernel
theorem test_stepS_B22_reserved_lead : faultRegs (exec .stepS (launched 4 6 [0x44, 0x01, 0x97, 0x43, 0xFB, 0x00])) =
    some (.error, [4, 0, 0, 251]) := by decide +kernel
theorem test_stepV_P5_truncated : faultRegs (exec .stepV (launched 256 1 [0x20])) = some (.error, [1, 0, 0, 1]) := by
  decide +kernel

/-! ## Units and codewords: vectors U5, U9, W2, V and R131 to R137 -/

theorem test_unpackS_U5 : unpacked 3 (exec (.unpackS 0 3 3) (launched 1 2 [0xC1, 0x01])) = some ([1, 0, 7], 2) := by
  decide +kernel
theorem test_unpackS_U9 : unpacked 2 (exec (.unpackS 0 2 17) (launched 1 5 [0x01, 0x00, 0x00, 0x80, 0x03])) =
    some ([1, 0x1C000], 5) := by decide +kernel
theorem test_unpackV_W2 : got (fun t => ((t.scratch.v.toList.map BitVec.toNat).filter (· ≠ 0),
      [t.scratch.v[0].toNat, t.scratch.v[9].toNat, t.scratch.v[255].toNat, t.scratch.len.toNat]))
      (exec (.unpackV 0 1) { launched 1 32 [] with inMem := [(0, 0x01), (4, 0x02), (31, 0x80)] }) =
    some ([1, 1, 1], [1, 1, 1, 32]) := by decide +kernel
theorem test_vb1 : vbRegs 1 (exec (.vb1 176) (launched 1 1 [0xB0])) = some ([176], 1, 1) := by decide +kernel
theorem test_vb2 : vbRegs 1 (exec (.vb2 0xB3) (launched 1 2 [0xB3, 0x0E])) = some ([703], 1, 2) := by decide +kernel
theorem test_vb3 : vbRegs 1 (exec (.vb3 0xF2) (launched 1 3 [0xF2, 0x01, 0x02])) = some ([82610], 1, 3) := by decide +kernel
theorem test_vb4 : vbRegs 1 (exec .vb4 (launched 1 5 [0xF9, 0x01, 0x02, 0x03, 0xEE])) = some ([197121], 1, 4) := by
  decide +kernel
theorem test_vb4_V26_truncated : faultRegs (exec .vb4 { launched 1 0 [] with
      inMem := [(28, 0xF9), (29, 0x01), (30, 0x02), (31, 0x03)]
      scratch := { Scratch.zero with vp := 28 } }) = some (.error, [1, 0, 0, 29]) := by decide +kernel
theorem test_vb5 : vbRegs 1 (exec .vb5 (launched 1 5 [0xFA, 0x00, 0x00, 0x00, 0x01])) = some ([16777216], 1, 5) := by
  decide +kernel
theorem test_reservedVbLead : faultRegs (exec (.reservedVbLead 0xFE) (launched 1 1 [0xFE])) = some (.error, [4, 0, 0, 254]) := by
  decide
theorem test_vbraw_V18 : vbRegs 3 (exec .vbraw { launched 1 13 [0xFF, 0x01, 0x00, 0x00, 0x00, 0xFF, 0xFF, 0xFF, 0xFF, 0x78,
      0x56, 0x34, 0x12] with scratch := { Scratch.zero with nex := 3 } }) = some ([1, 4294967295, 305419896], 3, 13) := by
  decide +kernel
theorem test_vbdec_V17 : vbRegs 6 (exec (.vbdec 0 6) (launched 1 16 [0x05, 0xB3, 0x0E, 0xF2, 0x01, 0x02, 0xF9, 0xAA, 0xBB,
      0xCC, 0xFA, 0x11, 0x22, 0x33, 0x44, 0xB0])) =
    some ([5, 703, 82610, 13417386, 1144201745, 176], 6, 16) := by decide +kernel
theorem test_vbdec_V21 : faultRegs (exec (.vbdec 0 2) (launched 1 2 [0x00, 0xFF])) = some (.error, [4, 0, 0, 255]) := by
  decide +kernel

/-! ## The sequencer: rows H2, H3, H4, H6 and programs P1, P4, P6 -/

theorem test_launch : got (fun t => (t.runState, t.ip.toNat, t.ecause.toNat, t.consumed.toNat))
      (exec .launch { State.reset with runState := .error, ecause := 2, ip := 9, consumed := 7 }) = some (.busy, 0, 0, 7) := by
  decide
theorem test_launch_too_long : exec .launch { State.reset with inlen := BitVec.ofNat 64 (2 ^ 64 - 32) } =
    .refused .launchOutsideSpec := rfl
theorem test_stepV_P1 : got (fun t => ((t.out.read 0).toNat, (t.out.read 255).toNat, (t.out.read 256).toNat, t.ip.toNat,
      t.op.toNat)) (exec .stepV (launched 260 7 [0xC8, 0x89, 0x07, 0xAA, 0x9C, 0xF6, 0x0E])) =
    some (137, 137, 0, 2, 256) := by decide +kernel
theorem test_stepS_S1 : blockOut 4 (exec .stepS (launched 4 5 [0x07, 0xAA, 0x9C, 0xF6, 0x0E])) =
    some ([42, 57, 90, 119], 5, 4) := by decide +kernel
theorem test_stepDone : got (fun t => (t.runState, t.consumed.toNat))
      (exec .stepDone { launched 4 5 [] with ip := 5, op := 4 }) = some (.done, 5) := by decide
theorem test_stepDone_not_enabled : exec .stepDone (launched 4 5 []) = .fault .stepNotEnabled := rfl

/-! ## Fetching a table word, as the first instruction after reset -/

theorem test_fetch_bp : blockOut 1 (step (State.reset.withFetchWord 8 0x07)) = some ([0], 2, 1) := by decide +kernel
theorem test_fetch_bpbx : blockOut 1 (step (State.reset.withFetchWord 8 0x84)) = some ([0], 4, 1) := by decide +kernel
theorem test_fetch_const : blockOut 1 (step (State.reset.withFetchWord 8 0xE0)) = some ([0], 5, 1) := by decide +kernel
theorem test_fetch_illegal : faultRegs (step (State.reset.withFetchWord 8 0x21)) = some (.error, [2, 0, 0, 33]) := by
  decide +kernel
theorem test_fetch_bpvx : step (State.reset.withFetchWord 8 0x44) = exec (.bpvx 4) (State.reset.withFetchWord 8 0x44) := rfl

/-! ## Witnesses: the hypotheses of each statement met together, every clause at a boundary of its range -/

section witnesses

/-- S1 in mode S. -/
abbrev w1 : State := launched 4 5 [0x07, 0xAA, 0x9C, 0xF6, 0x0E]

/-- Mode V with the longest main payload ending at the read bound. -/
abbrev w2 : State := launched 256 993 [0x20]

theorem witness_EncodedInstructionDecodesBack : (Instr.bp 32).wf = true ∧ .header ∈ (Instr.bp 32).spaces ∧
    (Instr.vb3 248).wf = true ∧ .vbLead ∈ (Instr.vb3 248).spaces ∧ .runFirst ∈ (Instr.vb3 248).spaces ∧
    .runFirst ∈ Instr.vbraw.spaces ∧ .runFirst ∈ (Instr.reservedVbLead 254).spaces ∧
    (Instr.reservedVbLead 255).spaces = [.vbLead] ∧ decode .vbLead [0xFF, 0x01] = .ok (.reservedVbLead 255, [0x01]) :=
  ⟨by decide, by decide, by decide, by decide, by decide, by decide, by decide, by decide, rfl⟩

theorem witness_MemReadBoundAndByteOrder : (0 < 1 ∧ (⟨[], 0⟩ : Input).len + 32 < 32 + 1) ∧
    0 < 1 ∧ 31 + 1 ≤ (⟨[], 0⟩ : Input).len + 32 := by decide

theorem witness_BpDecodesBlock : BlockEnabled w1 ∧ HeaderReadable w1 ∧ (7 : BitVec 6).toNat ≤ 32 ∧
    Readable w1.input (w1.ip.toNat + 1) (mainLen w1.blockCount (7 : BitVec 6).toNat w1.blockMode) := by
  unfold BlockEnabled HeaderReadable Readable; decide

theorem witness_BpDecodesBlock_modeV : BlockEnabled w2 ∧ HeaderReadable w2 ∧ (32 : BitVec 6).toNat ≤ 32 ∧
    Readable w2.input (w2.ip.toNat + 1) (mainLen w2.blockCount (32 : BitVec 6).toNat w2.blockMode) := by
  unfold BlockEnabled HeaderReadable Readable; decide

theorem witness_ConstDecodesBlock : BlockEnabled w1 ∧ HeaderReadable w1 ∧ (32 : BitVec 6).toNat ≤ 32 ∧
    Readable w1.input (w1.ip.toNat + 1) (((32 : BitVec 6).toNat + 7) / 8) := by
  unfold BlockEnabled HeaderReadable Readable; decide

/-- B15, one exception at the last position. -/
abbrev w3 : State := launched 4 6 [0x44, 0x01, 0x97, 0x43, 0x05, 0x03]

theorem witness_BpvxDecodesBlock : BlockEnabled w3 ∧ HeaderReadable w3 ∧ (4 : BitVec 6).toNat ≤ 32 ∧ Readable w3.input 1 1 ∧
    Readable w3.input 2 (mainLen 4 4 .S) ∧ Readable w3.input 5 (inByte w3 1) ∧
    ∀ k < inByte w3 1, inByte w3 (5 + k) < w3.blockCount := by
  unfold BlockEnabled HeaderReadable Readable; decide

theorem witness_BpvxDecodesBlock_vbdec : vbdec w3.input (0 + 2 + mainLen 4 4 .S) (inByte w3 (0 + 1)) = .ok ([5], 1) := rfl

/-- B25, both patched positions at the ends of the block. -/
abbrev w4 : State := launched 3 6 [0x83, 0x03, 0x05, 0x07, 0xC1, 0x01]

theorem witness_BpbxDecodesBlock : BlockEnabled w4 ∧ HeaderReadable w4 ∧ (3 : BitVec 6).toNat ≤ 32 ∧ Readable w4.input 1 1 ∧
    inByte w4 1 ≤ 32 ∧ Readable w4.input 2 ((w4.blockCount + 7) / 8) ∧
    Readable w4.input 3 ((bitmapRank w4.input 2 w4.blockCount * inByte w4 1 + 7) / 8) ∧
    Readable w4.input 4 (mainLen w4.blockCount 3 w4.blockMode) := by
  unfold BlockEnabled HeaderReadable Readable; decide

theorem witness_BpbxAddAgreesWithOr : got State.runState (exec (.bpbx 3) w4) = some .busy := by decide +kernel

theorem witness_IllegalHeaderTakesInvalidBitWidth : BlockEnabled w1 ∧ HeaderReadable w1 ∧ 32 < (0x21 : Byte).toNat % 64 ∧
    (0xE0 : Byte).toNat % 64 ≤ 32 := by
  unfold BlockEnabled HeaderReadable; decide

theorem witness_BpbxWideBxTakesInvalidBitWidth : let s := launched 4 3 [0x84, 0x21, 0x00]
    BlockEnabled s ∧ HeaderReadable s ∧ (4 : BitVec 6).toNat ≤ 32 ∧ Readable s.input 1 1 ∧ 32 < inByte s 1 := by
  unfold BlockEnabled HeaderReadable Readable; decide

/-- B16, the first index equal to `n`. -/
abbrev w5 : State := launched 4 6 [0x44, 0x01, 0x97, 0x43, 0x05, 0x04]

theorem witness_ExceptionMismatch_index : BlockEnabled w5 ∧ HeaderReadable w5 ∧ (4 : BitVec 6).toNat ≤ 32 := by
  unfold BlockEnabled HeaderReadable; decide

theorem witness_FirstBadIndex : FirstBadIndex w5 4 4 := by
  refine ⟨by unfold Readable; decide, by unfold Readable; decide, [5], 1, rfl, by unfold Readable; decide, 0, ?_⟩
  decide

theorem witness_ExceptionMismatch_only : w5.runState = .busy ∧
    got (fun t => (t.runState, t.ecause)) (exec (.bpvx 4) w5) = some (.error, 3) ∧
    got (fun t => (t.runState, t.ecause)) (exec .stepS w5) = some (.error, 3) := by decide +kernel

/-- A launch whose `IP` lies `k` bytes below the read bound. -/
abbrev nearEnd (nval k : Nat) (bytes : List Nat) : State :=
  { launched nval 0 [] with ip := BitVec.ofNat 64 (32 - k), inMem := cells (32 - k) bytes }

theorem witness_BlockFieldsPastBound_header : BlockEnabled (nearEnd 4 0 []) ∧ ¬ HeaderReadable (nearEnd 4 0 []) := by
  unfold BlockEnabled HeaderReadable; decide

theorem witness_BlockFieldsPastBound_first_field : let s := nearEnd 4 1 [0x04]
    BlockEnabled s ∧ HeaderReadable s ∧ ¬ Readable s.input 32 (mainLen 4 4 .S) ∧ ¬ Readable s.input 32 ((8 + 7) / 8) ∧
      ¬ Readable s.input 32 1 := by
  unfold BlockEnabled HeaderReadable Readable; decide

theorem witness_BlockFieldsPastBound_bpvx_main : let s := nearEnd 4 3 [0x44, 0x01, 0x97]
    BlockEnabled s ∧ HeaderReadable s ∧ Readable s.input 30 1 ∧ ¬ Readable s.input 31 (mainLen 4 4 .S) := by
  unfold BlockEnabled HeaderReadable Readable; decide

theorem witness_BlockFieldsPastBound_bpvx_indices : let s := nearEnd 4 5 [0x44, 0x01, 0x97, 0x43, 0x05]
    BlockEnabled s ∧ HeaderReadable s ∧ Readable s.input 28 1 ∧ Readable s.input 29 (mainLen 4 4 .S) ∧
      ¬ Readable s.input 32 (inByte s 28) := by
  unfold BlockEnabled HeaderReadable Readable; decide

theorem witness_BlockFieldsPastBound_bpvx_vbdec :
    vbdec (nearEnd 4 5 [0x44, 0x01, 0x97, 0x43, 0x05]).input 31 1 = .ok ([5], 1) := rfl

theorem witness_BlockFieldsPastBound_bpbx_bitmap : let s := nearEnd 4 2 [0x84, 0x20]
    BlockEnabled s ∧ HeaderReadable s ∧ Readable s.input 31 1 ∧ inByte s 31 ≤ 32 ∧ ¬ Readable s.input 32 ((4 + 7) / 8) := by
  unfold BlockEnabled HeaderReadable Readable; decide

theorem witness_BlockFieldsPastBound_bpbx_exceptions : let s := nearEnd 4 3 [0x84, 0x20, 0x01]
    BlockEnabled s ∧ HeaderReadable s ∧ Readable s.input 30 1 ∧ inByte s 30 ≤ 32 ∧ Readable s.input 31 ((4 + 7) / 8) ∧
      ¬ Readable s.input 32 ((bitmapRank s.input 31 4 * inByte s 30 + 7) / 8) := by
  unfold BlockEnabled HeaderReadable Readable; decide

theorem witness_BlockFieldsPastBound_bpbx_main : let s := nearEnd 4 4 [0x84, 0x08, 0x01, 0x05]
    BlockEnabled s ∧ HeaderReadable s ∧ Readable s.input 29 1 ∧ inByte s 29 ≤ 32 ∧ Readable s.input 30 ((4 + 7) / 8) ∧
      Readable s.input 31 ((bitmapRank s.input 30 4 * inByte s 29 + 7) / 8) ∧ ¬ Readable s.input 32 (mainLen 4 4 .S) := by
  unfold BlockEnabled HeaderReadable Readable; decide

/-- B22: the first lead byte of the VB run is reserved. -/
abbrev w6 : State := launched 4 6 [0x44, 0x01, 0x97, 0x43, 0xFB, 0x00]

theorem witness_BpvxTakesTheFaultOfItsVbRun : BlockEnabled w6 ∧ HeaderReadable w6 ∧ (4 : BitVec 6).toNat ≤ 32 ∧
    Readable w6.input 1 1 ∧ Readable w6.input 2 (mainLen 4 4 .S) ∧ 0 < inByte w6 1 ∧ Readable w6.input 4 1 ∧
    251 ≤ inByte w6 4 ∧ inByte w6 4 ≤ 254 := by
  unfold BlockEnabled HeaderReadable Readable; decide

theorem witness_BpvxTakesTheFaultOfItsVbRun_raise :
    vbdec w6.input (0 + 2 + mainLen 4 4 .S) (inByte w6 (0 + 1)) = .error (.invalidVBLead 251) := rfl

theorem witness_BpvxTakesTheFaultOfItsVbRun_past : let s := nearEnd 4 4 [0x44, 0x01, 0x97, 0x43]
    BlockEnabled s ∧ HeaderReadable s ∧ Readable s.input 29 1 ∧ Readable s.input 30 (mainLen 4 4 .S) ∧ 0 < inByte s 29 ∧
      ¬ Readable s.input 32 1 := by
  unfold BlockEnabled HeaderReadable Readable; decide

theorem witness_FaultDrawsOutputAndConsumed : (launched 1 1 [0x21]).runState = .busy ∧
    got State.runState (exec (.illegalHeader 0x21) (launched 1 1 [0x21])) = some .error := by decide

theorem witness_UnpackSReturnsStreamValues : let s := launched 1 992 []
    s.runState = .busy ∧ (Instr.unpackS 0 256 32).wf = true ∧ Readable s.input 0 ((256 * 32 + 7) / 8) := by
  unfold Readable; decide

theorem witness_UnpackVReturnsLaneValues : let s := launched 1 992 []
    s.runState = .busy ∧ (Instr.unpackV 0 32).wf = true ∧ Readable s.input 0 (32 * 32) := by
  unfold Readable; decide

theorem witness_UnpackersPastBound : let s := launched 1 991 []
    s.runState = .busy ∧ (Instr.unpackS 0 256 32).wf = true ∧ ¬ Readable s.input 0 ((256 * 32 + 7) / 8) ∧
      ¬ Readable s.input 0 (32 * 32) := by
  unfold Readable; decide

theorem witness_ScalarUnpackerOperationalAgrees : unpackS ⟨[(0, 0xC1), (1, 0x01)], 2⟩ 0 3 3 = .ok ([1, 0, 7], 2) ∧
    unpackS ⟨[], 0⟩ 0 256 32 = .error (.truncatedInput 0) := ⟨rfl, rfl⟩

theorem witness_LaneUnpackerOperationalAgrees : unpackV ⟨[], 0⟩ 32 0 = .ok (List.replicate 256 0, 0) ∧
    unpackV ⟨[], 0⟩ 1 1 = .error (.truncatedInput 1) := ⟨by decide +kernel, rfl⟩

/-- A launch with `p` at the last readable byte. -/
abbrev lastByte (k : Nat) : State := { launched 1 0 [] with scratch := { Scratch.zero with vp := BitVec.ofNat 64 (32 - k), nex := 1 } }

theorem witness_Vb1Value : (lastByte 1).runState = .busy ∧ (Instr.vb1 176).wf = true ∧ Readable (lastByte 1).input 31 1 := by
  unfold Readable; decide
theorem witness_Vb2Value : (lastByte 2).runState = .busy ∧ (Instr.vb2 240).wf = true ∧ Readable (lastByte 2).input 31 1 := by
  unfold Readable; decide
theorem witness_Vb3Value : (lastByte 3).runState = .busy ∧ (Instr.vb3 248).wf = true ∧ Readable (lastByte 3).input 30 2 := by
  unfold Readable; decide
theorem witness_Vb4Value : (lastByte 5).runState = .busy ∧ Readable (lastByte 5).input 28 4 := by unfold Readable; decide
theorem witness_Vb5Value : (lastByte 5).runState = .busy ∧ Readable (lastByte 5).input 28 4 := by unfold Readable; decide
theorem witness_ReservedLead : (lastByte 1).runState = .busy ∧ 251 ≤ (255 : Byte).toNat ∧ 251 ≤ (254 : Byte).toNat ∧
    (254 : Byte).toNat ≤ 254 ∧ Readable (lastByte 1).input 31 1 := by unfold Readable; decide
theorem witness_VbrawCopiesWords : (lastByte 5).runState = .busy ∧ Readable (lastByte 5).input 27 1 ∧
    Readable (lastByte 5).input 28 (4 * (lastByte 5).scratch.nex.toNat) := by unfold Readable; decide
theorem witness_Vb_past_bound : Readable (lastByte 1).input 31 1 ∧ ¬ Readable (lastByte 1).input 32 1 ∧
    Readable (lastByte 2).input 30 1 ∧ ¬ Readable (lastByte 2).input 31 2 ∧ Readable (lastByte 4).input 28 1 ∧
    ¬ Readable (lastByte 4).input 29 4 ∧ ¬ Readable (lastByte 4).input 29 (4 * (lastByte 4).scratch.nex.toNat) := by
  unfold Readable; decide
theorem witness_LeadBytePastBound : (lastByte 0).runState = .busy ∧ ¬ Readable (lastByte 0).input 32 1 ∧
    (Instr.vbdec 32 255).wf = true ∧ 0 < (255 : BitVec 9).toNat := by
  unfold Readable; decide
theorem witness_VbdecIsItsCodewords : let s := launched 1 1 [0xB0]
    s.runState = .busy ∧ (Instr.vbdec 0 1).wf = true ∧ 0 < (1 : BitVec 9).toNat ∧ s.inlen.toNat ≤ Config.maxInlen ∧
      inByte s 0 ≠ 255 ∧ got State.runState (exec (.vbdec 0 1) s) = some .busy := by decide +kernel
theorem witness_VbdecIsItsCodewords_error :
    got State.runState (exec (.vbdec 0 2) (launched 1 2 [0x00, 0xFF])) = some .error := by decide +kernel
theorem witness_VbdecSentinelRunIsRaw : let s := launched 1 989 [0xFF]
    s.runState = .busy ∧ (Instr.vbdec 0 255).wf = true ∧ Readable s.input 0 1 ∧ inByte s 0 = 255 ∧
      Readable s.input 1 (4 * 255) ∧ ¬ Readable (launched 1 988 [0xFF]).input 1 (4 * 255) := by
  unfold Readable; decide
theorem witness_VbdecEmptyRun_readable : (launched 1 0 [0xFF]).runState = .busy ∧
    ¬ (launched 1 0 [0xFF]).inlen.toNat + 32 ≤ (31 : Word64).toNat ∧ inByte (launched 1 0 [0xFF]) 0 = 255 := by decide
theorem witness_VbdecEmptyRun : (launched 1 0 []).runState = .busy ∧ (launched 1 0 []).inlen.toNat + 32 ≤ (32 : Word64).toNat := by
  decide
theorem witness_CanonicalVbRunDecodesBack : let s := launched 1 4 [0xF9, 0xB1, 0x40, 0x08]
    s.runState = .busy ∧ (∀ k (h : k < (encodeVbRun [540849]).length), readIn s.inMem (0 + k) = (encodeVbRun [540849])[k]) ∧
      Readable s.input 0 ((encodeVbRun [540849]).length + 1) := by
  unfold Readable; decide

theorem witness_LaunchStartsRun : let s : State := { State.reset with inlen := BitVec.ofNat 64 (2 ^ 64 - 33) }
    s.runState ≠ .busy ∧ s.inlen.toNat ≤ 2 ^ 64 - 33 ∧ w1.runState = .busy ∧ (1 : Word64).getLsbD 0 = true ∧
      ({ s with turns := [.host (.writeReg 0 1)] } : State).turns = .host (.writeReg 0 1) :: [] := by decide
theorem witness_LaunchOutsideSpecIsRefused : let s : State := { State.reset with inlen := BitVec.ofNat 64 (2 ^ 64 - 32) }
    s.runState ≠ .busy ∧ 2 ^ 64 - 33 < s.inlen.toNat := by decide
theorem witness_StepVDecodesOneBlock : (launched 256 1 [0xC0]).runState = .busy ∧
    256 ≤ (launched 256 1 [0xC0]).nval.toNat - (launched 256 1 [0xC0]).op.toNat ∧
    block (launched 256 1 [0xC0]).input 0 256 .V = .ok (List.replicate 256 0, 1) := ⟨rfl, by decide, rfl⟩
theorem witness_StepSDecodesTail : let n := (launched 255 1 [0xC0]).nval.toNat - (launched 255 1 [0xC0]).op.toNat
    (launched 255 1 [0xC0]).runState = .busy ∧ 0 < n ∧ n < 256 ∧
    block (launched 255 1 [0xC0]).input 0 255 .S = .ok (List.replicate 255 0, 1) :=
  ⟨rfl, by decide, by decide, rfl⟩
theorem witness_StepV_fault : block w2.input 0 256 .V = .ok (List.replicate 256 0, 1025) ∧
    block (launched 256 992 [0x20]).input 0 256 .V = .error (.truncatedInput 1) := ⟨by decide +kernel, rfl⟩
theorem witness_StepS_fault : block (launched 1 1 [0x21]).input 0 1 .S = .error (.invalidBitWidth 33) := rfl
theorem witness_BlockLengthBounds : 4 ≤ 256 ∧ block w1.input 0 4 .S = .ok ([42, 57, 90, 119], 5) := ⟨by decide, rfl⟩
theorem witness_StepDoneCompletes : let s := launched 0 0 []
    s.runState = .busy ∧ s.op = s.nval := by decide
theorem witness_StepRunsDecodedInstruction : BlockEnabled w1 ∧ HeaderReadable w1 ∧ (Instr.bp 7).wf = true ∧ w1.turns = [] := by
  unfold BlockEnabled HeaderReadable; decide
theorem witness_StepRunsDecodedInstruction_decode : decode .header (w1.input.bytesAt w1.ip.toNat 1) = .ok (.bp 7, []) := rfl
theorem witness_StepRunsDecodedInstruction_turns : ({ w1 with turns := [.engine] } : State).turns = .engine :: [] := rfl
theorem witness_StepRunsEnabledSequencerStep : (launched 256 0 []).turns = [] ∧ (launched 256 0 []).runState = .busy ∧
    256 ≤ (launched 256 0 []).nval.toNat - (launched 256 0 []).op.toNat ∧
    (launched 255 0 []).nval.toNat - (launched 255 0 []).op.toNat < 256 ∧
    (launched 0 0 []).op = (launched 0 0 []).nval ∧ State.reset.turns = [] ∧ State.reset.runState ≠ .busy := by decide

/-- The invariant holds of a launch in progress. -/
theorem witness_MachineInv_launch : MachineInv w1 := by
  refine ⟨⟨⟨by decide, by decide⟩, by decide, by decide, by decide, by decide⟩, ?_⟩
  decide

theorem witness_RunIsDecode : w1.runState = .busy ∧ w1.turns = [] ∧ w1.ip = 0 ∧ w1.op = 0 ∧
    w1.inlen.toNat ≤ Config.maxInlen := by decide
theorem witness_RunIsDecode_ok : decodeRun w1.input w1.nval.toNat = .ok ([42, 57, 90, 119], 5) := rfl
theorem witness_RunIsDecode_error : decodeRun (launched 1 1 [0x21]).input 1 = .error ⟨.invalidBitWidth 33, 0, 0⟩ := rfl
theorem witness_EveryRunEnds : MachineInv w1 ∧ w1.runState = .busy ∧ w1.turns = [] :=
  ⟨witness_MachineInv_launch, rfl, rfl⟩
theorem witness_BlockStepAdvancesCursors : MachineInv w1 ∧ w1.runState = .busy ∧ w1.op ≠ w1.nval ∧ w1.turns = [] ∧
    got State.runState (step w1) = some .busy := ⟨witness_MachineInv_launch, rfl, by decide, rfl, by decide +kernel⟩
theorem witness_StepKeepsInv : MachineInv w1 ∧ got State.runState (step w1) = some .busy :=
  ⟨witness_MachineInv_launch, by decide +kernel⟩
theorem witness_InstructionKeepsInv : MachineInv w1 ∧ got State.runState (exec (.bp 7) w1) = some .busy :=
  ⟨witness_MachineInv_launch, by decide +kernel⟩
theorem witness_OnlyListedStateTransitions : got State.runState (step (launched 0 0 [])) = some .done ∧
    got State.runState (step (launched 1 1 [0x21])) = some .error ∧
    got State.runState (step { State.reset with turns := [.host (.writeReg 0 1)] }) = some .busy ∧
    got State.runState (step { w1 with turns := [.host .reset] }) = some .idle := by decide +kernel
theorem witness_EngineKeepsInputAndWordsPastNval : got State.runState (exec .stepS w1) = some .busy := by decide +kernel
theorem witness_StepIsFunctionOfLaunchAndCursors : let s' : State := { w1 with consumed := 9, inMem := w1.inMem ++ [(37, 1)] }
    w1.runState = .busy ∧ s'.runState = .busy ∧ w1.turns = [] ∧ s'.turns = [] ∧
      (∀ a < w1.inlen.toNat + 32, readIn s'.inMem a = readIn w1.inMem a) ∧
      s'.inlen = w1.inlen ∧ s'.ip = w1.ip ∧ s'.op = w1.op ∧ s'.nval = w1.nval ∧
      got State.runState (step w1) = some .busy ∧ got State.runState (step s') = some .busy := by decide +kernel
theorem witness_HostReadsRegisters : ({ w1 with turns := [.host (.readReg 9)] } : State).turns = .host (.readReg 9) :: [] := rfl
theorem witness_HostWritesRegisters : (1 : Word64).getLsbD 0 = true ∧ (2 : Word64).getLsbD 0 = false ∧ w1.runState = .busy ∧
    State.reset.runState ≠ .busy ∧
    ({ w1 with turns := [.host (.writeReg 0 1)] } : State).turns = .host (.writeReg 0 1) :: [] := by decide
theorem witness_HostMemoryAccesses : w1.inlen.toNat + 32 ≤ (37 : Word64).toNat ∧ w1.runState = .busy ∧
    (36 : Word64).toNat < w1.inlen.toNat + 32 ∧ (1 : Byte) ≠ readIn w1.inMem (36 : Word64).toNat ∧
    (0x07 : Byte) = readIn w1.inMem (0 : Word64).toNat ∧
    w1.nval.toNat ≤ (4 : Word64).toNat ∧ (3 : Word64).toNat < w1.nval.toNat ∧ State.reset.runState ≠ .busy ∧
    ({ w1 with turns := [.host (.readOut 3)] } : State).turns = .host (.readOut 3) :: [] := by decide
theorem witness_ResetLeaves : ({ w1 with turns := [.host .reset] } : State).turns = .host .reset :: [] ∧
    State.reset.runState ≠ .busy := by decide

end witnesses

end Sys2Proof.Tests
end

section
/-! Proofs of the statements of 00_scope.md. -/

namespace Sys2Proof.Machine

open Sys2Proof.Safety

theorem le_bytesAt_lt (i : Input) (a k : Nat) : le (i.bytesAt a k) < 2 ^ (8 * k) := by
  simpa using le_lt (i.bytesAt a k)

/-- Settles O4: a readable range answers `le` of its bytes, whose bits are the stream bits from `a` on. -/
theorem memReadBoundAndByteOrder : Obligations.MemReadBoundAndByteOrder := by
  intro i a k
  refine ⟨?empty, fun hk hend => ?pastBound, fun _ hend => ?readable⟩
  case empty => rintro rfl; rfl
  case pastBound => exact memRead_error_iff.2 ⟨hk.ne', hend, rfl⟩
  case readable =>
    exact ⟨le (i.bytesAt a k), memRead_of_readable (.inr hend), le_bytesAt_lt i a k, le_bytesAt_testBit i a k⟩

end Sys2Proof.Machine
end

section
/-! Proofs of the statements of 30_encoding.md. -/

namespace Sys2Proof.Machine

open Sys2Proof.Safety

@[simp] theorem headerWidth_toNat (h : Byte) : (headerWidth h).toNat = h.toNat % 64 := by
  simp [headerWidth]

theorem decodeHeader_of_illegal {h : Byte} (hw : 32 < h.toNat % 64) : decodeHeader h = .illegalHeader h := by
  simp [decodeHeader, hw]

theorem decodeHeader_of_legal {h : Byte} (hw : h.toNat % 64 ≤ 32) :
    decodeHeader h ∈ [Instr.bp (headerWidth h), .bpvx (headerWidth h), .bpbx (headerWidth h),
      .const (headerWidth h)] := by
  have hlegal : ¬ 32 < (headerWidth h).toNat := by rw [headerWidth_toNat]; omega
  simp only [decodeHeader, hlegal, ite_false]
  split_ifs with hbp hbpvx hbpbx <;> simp

theorem exec_bpbx (b : BitVec 6) (s : State) :
    exec (.bpbx b) s = blockStep s fun i a n m => bpbx i a n m b.toNat := rfl

theorem exec_illegalHeader (h : Byte) (s : State) :
    exec (.illegalHeader h) s = blockStep s fun _ _ _ _ => .error (.invalidBitWidth (headerWidth h).toNat) := rfl

/-- A block step whose body raises enters the fault of that raise (60_exceptions.md R196). -/
theorem blockStep_faultEntry {body : Input → Nat → Nat → Mode → Except Raise (List Word32 × Nat)} {s : State}
    {r : Raise} (he : BlockEnabled s) (hr : HeaderReadable s)
    (h : body s.input s.ip.toNat s.blockCount s.blockMode = .error r) :
    ∃ t, blockStep s body = .next t ∧ FaultEntry s t r.code r.info :=
  ⟨s.takeFault r, blockStep_of_error he hr h, takeFault_entry s r⟩

/-- Settles O11: the `bx` byte is checked before the bitmap, so BPBX's body raises whatever follows. -/
theorem bpbxWideBxTakesInvalidBitWidth : Obligations.BpbxWideBxTakesInvalidBitWidth := by
  intro s b he hr _ hread hbx
  rw [exec_bpbx]
  exact blockStep_faultEntry (r := .invalidBitWidth _) he hr (bpbx_wide_bx hread hbx)

/-- Settles O10: the decoder checks the width before the shape, and an illegal header's body always raises. -/
theorem illegalHeaderTakesInvalidBitWidth : Obligations.IllegalHeaderTakesInvalidBitWidth := by
  intro s h
  refine ⟨decodeHeader_of_legal, decodeHeader_of_illegal, fun he hr _ => ?_⟩
  rw [exec_illegalHeader, ← headerWidth_toNat]
  exact blockStep_faultEntry (r := .invalidBitWidth _) he hr rfl

end Sys2Proof.Machine
end

section
/-! Proofs of the statements of 44_stream_driver.md. -/

namespace Sys2Proof.Machine

open Sys2Proof.Safety

theorem exec_launch (s : State) : exec .launch s = s.startLaunch := rfl

theorem startLaunch_of_busy {s : State} (hb : s.runState = .busy) : s.startLaunch = .next s := if_pos hb

theorem startLaunch_of_legal {s : State} (hb : s.runState ≠ .busy) (hl : s.inlen.toNat ≤ Config.maxInlen) :
    s.startLaunch = .next s.enterLaunch := by
  rw [State.startLaunch, if_neg hb, if_neg hl.not_gt]

/-- The host's write of START = 1 is LAUNCH (10_state.md R28). -/
theorem step_of_writeStart {s : State} {v : Word64} {ts : List Turn} (hv : v.getLsbD 0 = true)
    (ht : s.turns = .host (.writeReg 0 v) :: ts) : step s = exec .launch { s with turns := ts } := by
  simp only [step, move, ht, hostAct, State.writeReg, hv, ite_true, exec_launch]

theorem exec_stepV_of_enabled {s : State} (hb : s.runState = .busy) (hr : 256 ≤ s.remaining) :
    exec .stepV s = runBlock s := if_pos ⟨hb, hr⟩

theorem exec_stepS_of_enabled {s : State} (hb : s.runState = .busy) (h0 : 0 < s.remaining) (h256 : s.remaining < 256) :
    exec .stepS s = runBlock s := if_pos ⟨hb, h0, h256⟩

theorem exec_stepDone_of_enabled {s : State} (hb : s.runState = .busy) (hd : s.op = s.nval) :
    exec .stepDone s = .next { s with consumed := s.ip, runState := .done } := if_pos ⟨hb, hd⟩

theorem State.blockCount_of_256 {s : State} (h : 256 ≤ s.remaining) : s.blockCount = 256 := if_pos h

theorem State.blockMode_of_256 {s : State} (h : 256 ≤ s.remaining) : s.blockMode = .V := if_pos h

theorem State.blockCount_of_tail {s : State} (h : s.remaining < 256) : s.blockCount = s.remaining := if_neg h.not_ge

theorem State.blockMode_of_tail {s : State} (h : s.remaining < 256) : s.blockMode = .S := if_neg h.not_ge

theorem State.op_add_remaining {s : State} (h : 0 < s.remaining) : s.op.toNat + s.remaining = s.nval.toNat := by
  unfold State.remaining at *; omega

/-- A block that decodes has its count of values: its header byte, which was read, puts it below the read bound. -/
theorem block_length {i : Input} {a n len : Nat} {m : Mode} {vs : List Word32} (hm : m = .V → n = 256)
    (h : block i a n m = .ok (vs, len)) : vs.length = n := by
  have hread : a + 1 ≤ i.len + 32 := by
    obtain ⟨x, hx, -⟩ := bind_ok_iff.1 h
    exact (memRead_ok_iff.1 hx).1.resolve_left one_ne_zero
  exact (block_ok hm (by omega) h).1

/-- What BLOCK answers at `IP` is committed: the frame and the words written (43_pfor_block.md R150). -/
theorem runBlock_of_ok {s : State} {vs : List Word32} {len : Nat} (he : BlockEnabled s)
    (h : block s.input s.ip.toNat s.blockCount s.blockMode = .ok (vs, len)) :
    ∃ t, runBlock s = .next t ∧ BlockAdvance s t len s.blockCount ∧ vs.length = s.blockCount ∧
      ∀ p (hp : p < vs.length), t.out.read (s.op.toNat + p) = vs[p] := by
  have hlen : vs.length = s.blockCount := block_length s.blockMode_V h
  refine ⟨s.commitBlock vs len s.blockCount, ?_, commitBlock_advance s len hlen, hlen, commitBlock_read s vs len _⟩
  rw [runBlock_of_enabled he, h]

/-- What BLOCK raises at `IP` is taken (60_exceptions.md R196). -/
theorem runBlock_of_error {s : State} {r : Raise} (he : BlockEnabled s)
    (h : block s.input s.ip.toNat s.blockCount s.blockMode = .error r) :
    ∃ t, runBlock s = .next t ∧ FaultEntry s t r.code r.info := by
  refine ⟨s.takeFault r, ?_, takeFault_entry s r⟩
  rw [runBlock_of_enabled he, h]

/-- Settles O35: with 256 values left STEP.V is BLOCK at `IP` on 256 values in mode V. -/
theorem stepVDecodesOneBlock : Obligations.StepVDecodesOneBlock := by
  intro s hb (hr : 256 ≤ s.remaining)
  have he : BlockEnabled s := ⟨hb, by omega⟩
  rw [exec_stepV_of_enabled hb hr, ← State.blockCount_of_256 hr, ← State.blockMode_of_256 hr]
  exact ⟨fun _ _ => runBlock_of_ok he, fun _ => runBlock_of_error he⟩

/-- Settles O36: with 1 to 255 values left STEP.S is BLOCK at `IP` on all of them in mode S, so `OP` ends at `NVAL`. -/
theorem stepSDecodesTail : Obligations.StepSDecodesTail := by
  intro s n hb (h0 : 0 < s.remaining) (h256 : s.remaining < 256)
  have hn : n = s.blockCount := (State.blockCount_of_tail h256).symm
  rw [exec_stepS_of_enabled hb h0 h256, ← State.blockMode_of_tail h256, hn]
  refine ⟨fun vs len hok => ?decoded, fun _ => runBlock_of_error ⟨hb, h0⟩⟩
  case decoded =>
    obtain ⟨t, ht, hadv, hlen, hread⟩ := runBlock_of_ok ⟨hb, h0⟩ hok
    have ⟨_, _, _, _, hop, _⟩ := hadv
    have hend : t.op = s.nval := by
      rw [hop, State.blockCount_of_tail h256, State.op_add_remaining h0, BitVec.ofNat_toNat, BitVec.setWidth_eq]
    exact ⟨t, ht, hadv, hend, hlen, hread⟩

/-- Settles O33: START enters the launch outside BUSY and is ignored in it; the host's write of it is LAUNCH. -/
theorem launchStartsRun : Obligations.LaunchStartsRun := by
  intro s
  exact ⟨fun hb hl => ⟨s.enterLaunch, startLaunch_of_legal hb hl, rfl⟩, startLaunch_of_busy,
    fun _ _ => step_of_writeStart⟩

/-- Settles O37: STEP.DONE is enabled at `OP = NVAL` and records `IP` in CONSUMED. -/
theorem stepDoneCompletes : Obligations.StepDoneCompletes :=
  fun _ hb hd => ⟨_, exec_stepDone_of_enabled hb hd, rfl⟩

end Sys2Proof.Machine
end

section
/-! Proofs of the statements of 60_exceptions.md. -/

namespace Sys2Proof.Machine

open Sys2Proof.Safety

/-- A computation that raises no ExceptionMismatch (60_exceptions.md R193). -/
def NeverMismatch {α : Type} (x : Except Raise α) : Prop := ∀ idx, x ≠ .error (.exceptionMismatch idx)

section neverMismatch
variable {α β : Type}

theorem neverMismatch_ok (a : α) : NeverMismatch (.ok a) := by
  intro _ h; cases h

theorem neverMismatch_invalidBitWidth (w : Nat) : NeverMismatch (.error (.invalidBitWidth w) : Except Raise α) := by
  intro _ h; cases h

theorem neverMismatch_invalidVBLead (x : Nat) : NeverMismatch (.error (.invalidVBLead x) : Except Raise α) := by
  intro _ h; cases h

theorem NeverMismatch.bind {x : Except Raise α} {f : α → Except Raise β} (hx : NeverMismatch x)
    (hf : ∀ a, NeverMismatch (f a)) : NeverMismatch (x >>= f) := by
  intro idx h
  obtain hhead | ⟨a, -, htail⟩ := bind_error_iff.1 h
  · exact hx idx hhead
  · exact hf a idx htail

end neverMismatch

section bodies
variable {i : Input} {a b n p q : Nat} {m : Mode} {x : Byte}

theorem memRead_neverMismatch : NeverMismatch (memRead i a n) := by
  intro _ h
  obtain ⟨-, -, hr⟩ := memRead_error_iff.1 h
  cases hr

theorem unpackS_neverMismatch : NeverMismatch (unpackS i a n b) :=
  memRead_neverMismatch.bind fun _ => neverMismatch_ok _

theorem unpackV_neverMismatch : NeverMismatch (unpackV i a b) :=
  memRead_neverMismatch.bind fun _ => neverMismatch_ok _

theorem unpackM_neverMismatch : NeverMismatch (unpackM i q n b m) := by
  cases m with
  | V => exact unpackV_neverMismatch
  | S => exact unpackS_neverMismatch

theorem vb2_neverMismatch : NeverMismatch (vb2 i p x) := memRead_neverMismatch.bind fun _ => neverMismatch_ok _

theorem vb3_neverMismatch : NeverMismatch (vb3 i p x) := memRead_neverMismatch.bind fun _ => neverMismatch_ok _

theorem vb4_neverMismatch : NeverMismatch (vb4 i p) := memRead_neverMismatch.bind fun _ => neverMismatch_ok _

theorem vb5_neverMismatch : NeverMismatch (vb5 i p) := memRead_neverMismatch.bind fun _ => neverMismatch_ok _

theorem codeword_neverMismatch : NeverMismatch (codeword i p x) := by
  unfold codeword
  split_ifs with h1 h2 h3 h4 h5
  · exact neverMismatch_ok _
  · exact vb2_neverMismatch
  · exact vb3_neverMismatch
  · exact vb4_neverMismatch
  · exact vb5_neverMismatch
  · exact neverMismatch_invalidVBLead _

theorem codewords_neverMismatch : NeverMismatch (codewords i p n) := by
  induction n generalizing p with
  | zero => exact neverMismatch_ok _
  | succ n ih =>
    exact memRead_neverMismatch.bind fun _ => codeword_neverMismatch.bind fun _ => ih.bind fun _ => neverMismatch_ok _

theorem vbraw_neverMismatch : NeverMismatch (vbraw i a n) := memRead_neverMismatch.bind fun _ => neverMismatch_ok _

theorem vbdec_neverMismatch : NeverMismatch (vbdec i a n) := by
  unfold vbdec
  split_ifs with hempty
  · exact neverMismatch_ok _
  · refine memRead_neverMismatch.bind fun first => ?_
    split_ifs with hraw
    · exact vbraw_neverMismatch
    · exact codewords_neverMismatch.bind fun _ => neverMismatch_ok _

theorem bp_neverMismatch : NeverMismatch (bp i a n m b) := unpackM_neverMismatch.bind fun _ => neverMismatch_ok _

theorem const_neverMismatch : NeverMismatch (const i a n b) := memRead_neverMismatch.bind fun _ => neverMismatch_ok _

theorem bpbx_neverMismatch : NeverMismatch (bpbx i a n m b) := by
  refine memRead_neverMismatch.bind fun bx => ?_
  split_ifs with hwide
  · exact neverMismatch_invalidBitWidth _
  · exact memRead_neverMismatch.bind fun _ => unpackS_neverMismatch.bind fun _ =>
      unpackM_neverMismatch.bind fun _ => neverMismatch_ok _

/-- On index bytes that were read, BPVX's overlay raises ExceptionMismatch exactly for the first one `>= n`. -/
theorem overlayOr_mismatch_iff {idx nex : Nat} {e v : List Word32} (he : e.length = nex) :
    overlayOr n b (e.zip ((List.range nex).map fun k => (le (i.bytesAt q nex) >>> (8 * k)) &&& 0xFF)) v =
        .error (.exceptionMismatch idx) ↔
      ∃ k < nex, (readIn i.bytes (q + k)).toNat = idx ∧ n ≤ idx ∧ ∀ j < k, (readIn i.bytes (q + j)).toNat < n := by
  have hbytes : ((List.range nex).map fun k => (le (i.bytesAt q nex) >>> (8 * k)) &&& 0xFF) =
      (List.range nex).map fun k => (readIn i.bytes (q + k)).toNat :=
    List.map_congr_left fun k hk => byte_of_read _ _ _ _ (List.mem_range.1 hk)
  rw [hbytes, overlayOr_error_iff]
  simp only [List.length_zip, List.length_map, List.length_range, he, min_self, List.getElem_zip, List.getElem_map,
    List.getElem_range, Raise.exceptionMismatch.injEq, exists_prop, eq_comm (a := idx)]
  refine exists_congr fun k => and_congr_right fun _ => and_congr_right ?_
  rintro rfl
  rfl

end bodies

theorem exec_bpvx (b : BitVec 6) (s : State) :
    exec (.bpvx b) s = blockStep s fun i a n m => bpvx i a n m b.toNat := rfl

theorem memRead_one_ok {i : Input} {a x : Nat} (h : memRead i a 1 = .ok x) :
    Readable i a 1 ∧ x = (readIn i.bytes a).toNat := by
  have hread : Readable i a 1 := (memRead_ok_iff.1 h).1
  rw [memRead_one (hread.resolve_left one_ne_zero)] at h
  cases h
  exact ⟨hread, rfl⟩

/-- BPVX's body raises ExceptionMismatch exactly for the block's first index `>= n`: no read and no VB run does. -/
theorem bpvx_mismatch_iff {s : State} {b idx : Nat} (hr : HeaderReadable s) :
    bpvx s.input s.ip.toNat s.blockCount s.blockMode b = .error (.exceptionMismatch idx) ↔ FirstBadIndex s b idx := by
  have hheader : s.ip.toNat + 1 ≤ s.input.len + 32 := hr
  constructor
  · intro h
    obtain h | ⟨nex, hnex, h⟩ := bind_error_iff.1 h
    · exact absurd h (memRead_neverMismatch idx)
    obtain h | ⟨⟨v, lm⟩, hmain, h⟩ := bind_error_iff.1 h
    · exact absurd h (unpackM_neverMismatch idx)
    obtain h | ⟨⟨e, lv⟩, hrun, h⟩ := bind_error_iff.1 h
    · exact absurd h (vbdec_neverMismatch idx)
    obtain h | ⟨x, hx, h⟩ := bind_error_iff.1 h
    · exact absurd h (memRead_neverMismatch idx)
    obtain hover | ⟨w, -, h⟩ := bind_error_iff.1 h
    · obtain ⟨hnexRead, rfl⟩ := memRead_one_ok hnex
      obtain ⟨hmainRead, rfl, -⟩ := unpackM_ok s.blockMode_V hmain
      obtain ⟨hidxRead, rfl⟩ := memRead_ok_iff.1 hx
      have hcount := (vbdec_ok (hmainRead.end_le (hnexRead.end_le hheader)) hrun).1
      exact ⟨hnexRead, hmainRead, e, lv, hrun, hidxRead, (overlayOr_mismatch_iff hcount).1 hover⟩
    · cases h
  · rintro ⟨hnexRead, hmainRead, e, lv, hrun, hidxRead, hfirst⟩
    have hcount := (vbdec_ok (hmainRead.end_le (hnexRead.end_le hheader)) hrun).1
    have hnex : memRead s.input (s.ip.toNat + 1) 1 = .ok (inByte s (s.ip.toNat + 1)) :=
      memRead_one (hnexRead.resolve_left one_ne_zero)
    have hover (v : List Word32) := (overlayOr_mismatch_iff (i := s.input) (b := b) (v := v) hcount).2 hfirst
    simp only [bpvx, hnex, unpackM_of_readable s.blockMode_V hmainRead, hrun, memRead_of_readable hidxRead, hover, ok_bind,
      error_bind]

/-- An index is a byte, so it is `>= n` only where `n < 256`: in mode S (60_exceptions.md R193). -/
theorem firstBadIndex_blockMode {s : State} {b idx : Nat} (h : FirstBadIndex s b idx) : s.blockMode = .S := by
  obtain ⟨-, -, e, lv, -, -, k, -, rfl, hbad, -⟩ := h
  cases hm : s.blockMode with
  | S => rfl
  | V =>
    rw [State.blockMode_V hm] at hbad
    have hbyte : inByte s (s.ip.toNat + 2 + mainLen 256 b s.blockMode + lv + k) < 256 := BitVec.isLt _
    exact absurd hbad hbyte.not_ge

/-- A launch ended with cause ExceptionMismatch (60_exceptions.md R195, R196). -/
def EndsInMismatch (t : State) : Prop := t.runState = .error ∧ t.ecause = 3

theorem endsInMismatch_takeFault {s : State} {r : Raise} (h : EndsInMismatch (s.takeFault r)) :
    ∃ idx, r = .exceptionMismatch idx := by
  obtain ⟨-, hcause⟩ := h
  rw [State.takeFault_ecause] at hcause
  cases r with
  | exceptionMismatch idx => exact ⟨idx, rfl⟩
  | truncatedInput a => cases hcause
  | invalidBitWidth w => cases hcause
  | invalidVBLead x => cases hcause

theorem not_endsInMismatch_of_busy {t : State} (h : t.runState = .busy) : ¬ EndsInMismatch t := by
  rintro ⟨herr, -⟩
  rw [h] at herr
  cases herr

/-- A block step ends in ExceptionMismatch only where its body raises it, EINFO the index raised. -/
theorem blockStep_mismatch {body : Input → Nat → Nat → Mode → Except Raise (List Word32 × Nat)} {s t : State}
    (h : blockStep s body = .next t) (hm : EndsInMismatch t) :
    ∃ idx, HeaderReadable s ∧ body s.input s.ip.toNat s.blockCount s.blockMode = .error (.exceptionMismatch idx) ∧
      t.einfo = BitVec.ofNat 64 idx := by
  obtain ⟨hb, -, ⟨r, hraise, rfl⟩ | ⟨vs, len, -, -, rfl⟩⟩ := blockStep_next h
  · obtain ⟨idx, rfl⟩ := endsInMismatch_takeFault hm
    obtain hhead | ⟨hread, hbody⟩ := hraise
    · exact absurd hhead (memRead_neverMismatch idx)
    · exact ⟨idx, hread.resolve_left one_ne_zero, hbody, rfl⟩
  · exact absurd hm (not_endsInMismatch_of_busy hb)

theorem blockStep_not_mismatch {body : Input → Nat → Nat → Mode → Except Raise (List Word32 × Nat)} {s t : State}
    (h : blockStep s body = .next t) (hbody : ∀ i a n m, NeverMismatch (body i a n m)) : ¬ EndsInMismatch t := by
  intro hm
  obtain ⟨idx, -, hraise, -⟩ := blockStep_mismatch h hm
  exact hbody _ _ _ _ idx hraise

theorem scratchStep_not_mismatch {body : Input → Scratch → Except Raise Scratch} {s t : State}
    (h : scratchStep s body = .next t) (hbody : ∀ i sc, NeverMismatch (body i sc)) : ¬ EndsInMismatch t := by
  intro hm
  obtain ⟨hb, ⟨r, hraise, rfl⟩ | ⟨sc, -, rfl⟩⟩ := scratchStep_next h
  · obtain ⟨idx, rfl⟩ := endsInMismatch_takeFault hm
    exact hbody _ _ idx hraise
  · exact not_endsInMismatch_of_busy (t := { s with scratch := sc }) hb hm

theorem codewordStep_not_mismatch {body : Input → Nat → Except Raise (Word32 × Nat)} {s t : State}
    (h : codewordStep s body = .next t) (hbody : ∀ i p, NeverMismatch (body i p)) : ¬ EndsInMismatch t :=
  scratchStep_not_mismatch h fun i sc => memRead_neverMismatch.bind fun _ => (hbody i sc.vp.toNat).bind fun _ =>
    neverMismatch_ok _

theorem execBpvx_mismatch {b : BitVec 6} {s t : State} (h : exec (.bpvx b) s = .next t) (hm : EndsInMismatch t) :
    ∃ idx, FirstBadIndex s b.toNat idx ∧ t.einfo = BitVec.ofNat 64 idx := by
  rw [exec_bpvx] at h
  obtain ⟨idx, hr, hraise, hinfo⟩ := blockStep_mismatch h hm
  exact ⟨idx, (bpvx_mismatch_iff hr).1 hraise, hinfo⟩

/-- The instructions whose step can end in ExceptionMismatch: BPVX, and the two sequencer steps, which run the block at `IP`. -/
theorem exec_mismatch_cases {i : Instr} {s t : State} (h : exec i s = .next t) (hb : s.runState = .busy)
    (hm : EndsInMismatch t) :
    (∃ b, i = .bpvx b) ∨ (i = .stepV ∧ 256 ≤ s.remaining ∨ i = .stepS) ∧ runBlock s = .next t := by
  unfold exec at h
  cases i with
  | bpvx b => exact .inl ⟨b, rfl⟩
  | bp b => exact absurd hm (blockStep_not_mismatch h fun _ _ _ _ => bp_neverMismatch)
  | bpbx b => exact absurd hm (blockStep_not_mismatch h fun _ _ _ _ => bpbx_neverMismatch)
  | const b => exact absurd hm (blockStep_not_mismatch h fun _ _ _ _ => const_neverMismatch)
  | illegalHeader x => exact absurd hm (blockStep_not_mismatch h fun _ _ _ _ => neverMismatch_invalidBitWidth _)
  | vb1 x => exact absurd hm (codewordStep_not_mismatch h fun _ _ => neverMismatch_ok _)
  | vb2 x => exact absurd hm (codewordStep_not_mismatch h fun _ _ => vb2_neverMismatch)
  | vb3 x => exact absurd hm (codewordStep_not_mismatch h fun _ _ => vb3_neverMismatch)
  | vb4 => exact absurd hm (codewordStep_not_mismatch h fun _ _ => vb4_neverMismatch)
  | vb5 => exact absurd hm (codewordStep_not_mismatch h fun _ _ => vb5_neverMismatch)
  | reservedVbLead x => exact absurd hm (codewordStep_not_mismatch h fun _ _ => neverMismatch_invalidVBLead _)
  | vbraw =>
    exact absurd hm (scratchStep_not_mismatch h fun _ _ => memRead_neverMismatch.bind fun _ =>
      vbraw_neverMismatch.bind fun _ => neverMismatch_ok _)
  | unpackS a n b =>
    exact absurd hm (scratchStep_not_mismatch h fun _ _ => unpackS_neverMismatch.bind fun _ =>
      memRead_neverMismatch.bind fun _ => neverMismatch_ok _)
  | unpackV a b =>
    exact absurd hm (scratchStep_not_mismatch h fun _ _ => unpackV_neverMismatch.bind fun _ => neverMismatch_ok _)
  | vbdec a n =>
    exact absurd hm (scratchStep_not_mismatch h fun _ _ => vbdec_neverMismatch.bind fun _ => neverMismatch_ok _)
  | launch =>
    cases (startLaunch_of_busy hb).symm.trans h
    exact absurd hm (not_endsInMismatch_of_busy hb)
  | stepV =>
    simp only [execStepV] at h
    split_ifs at h with hen
    exact .inr ⟨.inl ⟨rfl, hen.2⟩, h⟩
  | stepS =>
    simp only [execStepS] at h
    split_ifs at h with hen
    exact .inr ⟨.inr rfl, h⟩
  | stepDone =>
    simp only [execStepDone] at h
    split_ifs at h with hen
    cases h
    cases hm.1

/-- BLOCK's dispatch runs the instruction its header byte decodes to (43_pfor_block.md R150). -/
theorem runHeader_eq_exec (h : Byte) (s : State) : runHeader h s = exec (decodeHeader h) s := by
  simp only [runHeader, decodeHeader]
  split_ifs <;> rfl

theorem runBlock_of_readable {s : State} (hr : HeaderReadable s) :
    runBlock s = exec (decodeHeader (readIn s.inMem s.ip.toNat)) s := by
  simp only [runBlock, memRead_one (i := s.input) hr, runHeader_eq_exec, State.input_bytes, BitVec.ofNat_toNat,
    BitVec.setWidth_eq]

theorem runBlock_of_not_readable {s : State} (hr : ¬ HeaderReadable s) :
    runBlock s = .next (s.takeFault (.truncatedInput s.ip.toNat)) := by
  have hread : ¬ Readable s.input s.ip.toNat 1 := fun h => hr (h.resolve_left one_ne_zero)
  simp only [runBlock, memRead_of_not_readable hread]

/-- No header byte decodes to a sequencer step. -/
theorem decodeHeader_not_step (h : Byte) : decodeHeader h ≠ .stepV ∧ decodeHeader h ≠ .stepS := by
  obtain hw | hw := Nat.lt_or_ge 32 (h.toNat % 64)
  · simp [decodeHeader_of_illegal hw]
  · have hmem := decodeHeader_of_legal hw
    constructor <;> intro heq <;> simp [heq] at hmem

/-- The block at `IP` ends in ExceptionMismatch only when its header is BPVX's. -/
theorem runBlock_mismatch {s t : State} (h : runBlock s = .next t) (hb : s.runState = .busy) (hm : EndsInMismatch t) :
    ∃ b, decodeHeader (readIn s.inMem s.ip.toNat) = .bpvx b ∧ exec (.bpvx b) s = .next t := by
  by_cases hr : HeaderReadable s
  · rw [runBlock_of_readable hr] at h
    obtain ⟨hV, hS⟩ := decodeHeader_not_step (readIn s.inMem s.ip.toNat)
    obtain ⟨b, hbpvx⟩ | ⟨⟨hstep, -⟩ | hstep, -⟩ := exec_mismatch_cases h hb hm
    · exact ⟨b, hbpvx, hbpvx ▸ h⟩
    · exact absurd hstep hV
    · exact absurd hstep hS
  · rw [runBlock_of_not_readable hr] at h
    cases h
    obtain ⟨idx, hraise⟩ := endsInMismatch_takeFault hm
    cases hraise

/-- Settles O12: the overlay's index check is the only source of ExceptionMismatch, and it passes every byte in mode V, so
STEP.V never ends with it. -/
theorem exceptionMismatchOnlyForBpvxIndex : Obligations.ExceptionMismatchOnlyForBpvxIndex := by
  refine ⟨fun s b idx he hr _ hbad => ?raised, fun i s t h hb herr hcause => ?onlyThere⟩
  case raised =>
    rw [exec_bpvx]
    exact blockStep_faultEntry (r := .exceptionMismatch idx) he hr ((bpvx_mismatch_iff hr).2 hbad)
  case onlyThere =>
    have hm : EndsInMismatch t := ⟨herr, hcause⟩
    obtain ⟨b, rfl⟩ | ⟨hi, hrun⟩ := exec_mismatch_cases h hb hm
    · obtain ⟨idx, hbad, hinfo⟩ := execBpvx_mismatch h hm
      exact ⟨firstBadIndex_blockMode hbad, b, idx, .inl rfl, hbad, hinfo⟩
    · obtain ⟨b, hheader, hbpvx⟩ := runBlock_mismatch hrun hb hm
      obtain ⟨idx, hbad, hinfo⟩ := execBpvx_mismatch hbpvx hm
      have hmode := firstBadIndex_blockMode hbad
      obtain ⟨-, h256⟩ | rfl := hi
      · rw [State.blockMode_of_256 h256] at hmode
        cases hmode
      · exact ⟨hmode, b, idx, .inr ⟨rfl, hheader⟩, hbad, hinfo⟩

end Sys2Proof.Machine
end

section
/-! Proofs of the statements of 70_reset_and_hazards.md. -/

namespace Sys2Proof.Machine

/-- A queued access of the host is the move (log entry 8). -/
theorem step_of_hostTurn {s : State} {acc : HostAccess} {ts : List Turn} (ht : s.turns = .host acc :: ts) :
    step s = hostAct acc { s with turns := ts } := by
  simp only [step, move, ht]

section writeReg
variable {s : State} {index : Nat} {v : Word64}

theorem hostAct_writeReg : hostAct (.writeReg index v) s = s.writeReg index v := rfl

theorem State.writeReg_start (hv : v.getLsbD 0 = true) : s.writeReg 0 v = exec .launch s := if_pos hv

theorem State.writeReg_ctrl_of_start_clear (hv : v.getLsbD 0 = false) : s.writeReg 0 v = .next s := by
  simp only [State.writeReg, hv, ite_true, Bool.false_eq_true, ite_false]

/-- While BUSY no host register takes a write, and START is ignored (10_state.md R28, R30, R31). -/
theorem State.writeReg_of_busy (hb : s.runState = .busy) : s.writeReg index v = .next s := by
  by_cases hi : index = 0
  · subst hi
    cases hv : v.getLsbD 0 with
    | true => exact (State.writeReg_start hv).trans (startLaunch_of_busy hb)
    | false => exact State.writeReg_ctrl_of_start_clear hv
  · rw [State.writeReg, if_neg hi, if_pos hb]

theorem State.writeReg_nval (hb : s.runState ≠ .busy) : s.writeReg 2 v = .next { s with nval := v } := by
  rw [State.writeReg, if_neg two_ne_zero, if_neg hb, if_pos rfl]

theorem State.writeReg_inlen (hb : s.runState ≠ .busy) : s.writeReg 3 v = .next { s with inlen := v } := by
  rw [State.writeReg, if_neg three_ne_zero, if_neg hb, if_neg (by decide), if_pos rfl]

/-- Every register but CTRL, NVAL and INLEN ignores a write (10_state.md R27, R37). -/
theorem State.writeReg_readOnly (h0 : index ≠ 0) (h2 : index ≠ 2) (h3 : index ≠ 3) : s.writeReg index v = .next s := by
  rw [State.writeReg, if_neg h0, if_neg h2, if_neg h3, ite_self]

end writeReg

/-- Settles O51: the queued write is `State.writeReg`, one law per register; while BUSY all of them are ignored. -/
theorem hostWritesRegisters : Obligations.HostWritesRegisters := by
  intro s index v ts ht
  rw [step_of_hostTurn ht, hostAct_writeReg]
  refine ⟨?start, ?startClear, fun hb => State.writeReg_of_busy hb, ?nval, ?inlen, ?readOnly⟩
  case start =>
    rintro rfl hv
    exact State.writeReg_start hv
  case startClear =>
    rintro rfl hv
    exact State.writeReg_ctrl_of_start_clear hv
  case nval =>
    rintro hb rfl
    exact State.writeReg_nval hb
  case inlen =>
    rintro hb rfl
    exact State.writeReg_inlen hb
  case readOnly =>
    intro hi
    exact State.writeReg_readOnly (by omega) (by omega) (by omega)

/-- A reset leaves `OUT[0 .. NVAL)` unspecified only of a run in progress (70_reset_and_hazards.md R220, R221). -/
theorem doReset_read (s : State) (k : Nat) :
    s.doReset.out.read k =
      if s.runState = .busy ∧ k < s.nval.toNat then Config.freeBits 32 s.draw k else s.out.read k := by
  rw [State.doReset_out, ite_and]
  split_ifs with hb hk
  · rw [OutMem.read_flood, if_pos hk]
  · rw [OutMem.read_flood, if_neg hk]
  · rfl

/-- Settles O53: the queued reset is `State.doReset`, whose fields are the model's laws and whose OUT is `doReset_read`. -/
theorem resetLeaves : Obligations.ResetLeaves := by
  intro s ts ht
  rw [step_of_hostTurn ht]
  refine ⟨_, rfl, rfl, rfl, rfl, rfl, rfl, rfl, rfl, rfl, rfl, rfl, fun _ => rfl, fun hb k => ?idle, fun k hk => ?pastNval⟩
  case idle => exact (doReset_read _ k).trans (if_neg fun h => hb h.1)
  case pastNval => exact (doReset_read _ k).trans (if_neg fun h => hk.not_gt h.2)

end Sys2Proof.Machine
end

section
/-! Proofs of the statements on the machine invariant and on STATE, from 10_state.md and 60_exceptions.md. -/

namespace Sys2Proof.Machine

open Sys2Proof.Safety

/-- What the invariant says of a launch in progress (10_state.md R23, R24; 70_reset_and_hazards.md R224). -/
theorem machineInv_busy {s : State} (hi : MachineInv s) (hb : s.runState = .busy) :
    s.inlen.toNat ≤ Config.maxInlen ∧ s.ip.toNat ≤ s.inlen.toNat + 32 ∧ s.op.toNat ≤ s.nval.toNat ∧
      (s.op.toNat % 256 = 0 ∨ s.op = s.nval) := by
  obtain ⟨-, hlaunch, -⟩ := hi
  exact hlaunch hb

theorem State.blockCount_cases (s : State) :
    256 ≤ s.remaining ∧ s.blockCount = 256 ∨ s.remaining < 256 ∧ s.blockCount = s.remaining := by
  obtain h | h := Nat.lt_or_ge s.remaining 256
  · exact .inr ⟨h, State.blockCount_of_tail h⟩
  · exact .inl ⟨h, State.blockCount_of_256 h⟩

theorem raise_code_bounds (r : Raise) : 1 ≤ r.code.toNat ∧ r.code.toNat ≤ 4 := by
  cases r <;> simp [Raise.code]

section commit
variable {s : State} {vs : List Word32} {len : Nat}

/-- A committed block wraps neither cursor of a legal launch (70_reset_and_hazards.md R224). -/
theorem commitBlock_ip_toNat (hl : s.inlen.toNat ≤ Config.maxInlen)
    (ok : BodyOk s.input s.ip.toNat s.blockCount (vs, len)) :
    (s.commitBlock vs len s.blockCount).ip.toNat = s.ip.toNat + len := by
  have hbound : s.ip.toNat + len ≤ s.inlen.toNat + 32 := ok.bound
  rw [State.commitBlock_ip, BitVec.toNat_ofNat, Nat.mod_eq_of_lt (by simp only [Config.maxInlen] at hl; omega)]

theorem commitBlock_op_toNat (hr : 0 < s.remaining) :
    (s.commitBlock vs len s.blockCount).op.toNat = s.op.toNat + s.blockCount := by
  have hcount := s.blockCount_le
  have hend := State.op_add_remaining hr
  have hnval := s.nval.isLt
  rw [State.commitBlock_op, BitVec.toNat_ofNat, Nat.mod_eq_of_lt (by omega)]

theorem commitBlock_inv (hi : MachineInv s) (hb : s.runState = .busy) (hr : 0 < s.remaining)
    (ok : BodyOk s.input s.ip.toNat s.blockCount (vs, len)) : MachineInv (s.commitBlock vs len s.blockCount) := by
  obtain ⟨hlegal, -, -, hboundary⟩ := machineInv_busy hi hb
  obtain ⟨⟨hin, hout⟩, -, hregs⟩ := hi
  refine ⟨⟨hin, OutMem.writeMany_wf vs hout _⟩, fun _ => ⟨hlegal, ?ip, ?op, ?boundary⟩, ?regs⟩
  case ip => exact (commitBlock_ip_toNat hlegal ok).trans_le ok.bound
  case op =>
    have hend := State.op_add_remaining hr
    have hcount := s.blockCount_le
    exact (commitBlock_op_toNat hr).trans_le (by rw [State.commitBlock_nval]; omega)
  case boundary =>
    have hop : (s.commitBlock vs len s.blockCount).op.toNat = _ := commitBlock_op_toNat hr
    have hend := State.op_add_remaining hr
    have hne : s.op ≠ s.nval := fun h => by rw [h] at hend; omega
    obtain ⟨-, hcount⟩ | ⟨-, hcount⟩ := s.blockCount_cases
    · have := hboundary.resolve_right hne
      exact .inl (by omega)
    · exact .inr (BitVec.eq_of_toNat_eq (by rw [State.commitBlock_nval]; omega))
  case regs =>
    simpa [hb] using hregs

end commit

theorem enterLaunch_inv {s : State} (hi : MachineInv s) (hl : s.inlen.toNat ≤ Config.maxInlen) :
    MachineInv s.enterLaunch := by
  obtain ⟨hmem, -⟩ := hi
  exact ⟨hmem, fun _ => ⟨hl, by simp, by simp, by simp⟩, by simp⟩

theorem takeFault_inv {s : State} (hi : MachineInv s) (r : Raise) : MachineInv (s.takeFault r) := by
  obtain ⟨⟨hin, hout⟩, -⟩ := hi
  obtain ⟨hcause, hmax⟩ := raise_code_bounds r
  have hne : r.code ≠ 0 := by
    intro h
    rw [h] at hcause
    cases hcause
  exact ⟨⟨hin, OutMem.flood_wf hout _ _⟩, by simp, hmax, iff_of_true hne rfl, by simp⟩

theorem complete_inv {s : State} (hi : MachineInv s) (hb : s.runState = .busy) :
    MachineInv { s with consumed := s.ip, runState := .done } := by
  obtain ⟨hmem, -, hcause, hcauseIff, -, hzero, -⟩ := hi
  simp only [hb, reduceCtorEq, iff_false, ne_eq, not_false_iff, forall_const] at hcauseIff hzero
  exact ⟨hmem, by simp, hcause, by simpa using hcauseIff, by simp, fun _ => hzero, fun _ => rfl, by simp⟩

theorem doReset_inv {s : State} (hi : MachineInv s) : MachineInv s.doReset := by
  obtain ⟨⟨hin, hout⟩, -⟩ := hi
  refine ⟨⟨hin, ?out⟩, by simp⟩
  rw [State.doReset_out]
  split_ifs
  · exact OutMem.flood_wf hout _ _
  · exact hout

theorem effect_inv {s t : State} (he : Effect s t) (hi : MachineInv s) : MachineInv t := by
  cases he with
  | ignored _ => exact hi
  | launch _ hl => exact enterLaunch_inv hi hl
  | fault _ r => exact takeFault_inv hi r
  | block hb hr vs len ok hf => exact commitBlock_inv hi hb hr (ok hf)
  | scratch _ _ => exact hi
  | complete hb _ => exact complete_inv hi hb

/-- Settles O46: the invariant is kept by each of the effects an instruction can have. -/
theorem instructionKeepsInv : Obligations.InstructionKeepsInv :=
  fun _ _ _ hi h => effect_inv (exec_effect h) hi

/-- A launch argument counts for the invariant only while BUSY, where the host cannot write it. -/
theorem machineInv_of_not_busy {s t : State} (hi : MachineInv s) (hb : s.runState ≠ .busy)
    (h : t = { s with nval := t.nval, inlen := t.inlen }) : MachineInv t := by
  obtain ⟨hmem, -, hregs⟩ := hi
  rw [h]
  exact ⟨hmem, fun hb' => absurd hb' hb, hregs⟩

theorem hostEffect_inv {a : HostAccess} {s t : State} (he : HostEffect s a t) (hi : MachineInv s) : MachineInv t := by
  cases he with
  | start h => exact effect_inv (startLaunch_effect h) hi
  | none => exact hi
  | setNval hb v => exact machineInv_of_not_busy hi hb rfl
  | setInlen hb v => exact machineInv_of_not_busy hi hb rfl
  | data _ _ _ => exact hi
  | placeIn k v _ =>
    obtain ⟨⟨hin, hout⟩, hrest⟩ := hi
    exact ⟨⟨writeIn_wf hin k v, hout⟩, hrest⟩
  | placeOut i v _ =>
    obtain ⟨⟨hin, hout⟩, hrest⟩ := hi
    exact ⟨⟨hin, OutMem.write_wf hout i v⟩, hrest⟩
  | reset _ => exact doReset_inv hi

/-- Who moves next does not count for the invariant (log entry 8). -/
theorem machineInv_turns {s : State} (hi : MachineInv s) (ts : List Turn) : MachineInv { s with turns := ts } := hi

/-- Settles O45: a step is a host access, an instruction, or nothing. -/
theorem stepKeepsInv : Obligations.StepKeepsInv := by
  intro s t hi h
  obtain ⟨a, rest, -, hhost⟩ | ⟨rest, -, ⟨-, hexec⟩ | ⟨-, rfl⟩⟩ := step_cases h
  · exact hostEffect_inv (hostAct_effect hhost) (machineInv_turns hi rest)
  · exact instructionKeepsInv _ _ _ (machineInv_turns hi rest) hexec
  · exact machineInv_turns hi rest

/-- Settles O44: the reset state lists nothing in either memory and holds zero in every register. -/
theorem resetSatisfiesInv : Obligations.ResetSatisfiesInv := by
  refine ⟨⟨⟨.nil, ?_⟩, .nil, ?_, .nil, ?_⟩, ?_⟩ <;> simp [State.reset]

/-- Settles O54: `State.reset` field by field. -/
theorem resetStateValues : Obligations.ResetStateValues := by
  unfold Obligations.ResetStateValues State.reset
  simp

/-- Settles O15: the only effect that ends in ERROR is a fault taken. -/
theorem faultDrawsOutputAndConsumed : Obligations.FaultDrawsOutputAndConsumed := by
  intro i s t h hb herr
  cases exec_effect h with
  | fault _ r =>
    obtain ⟨hconsumed, hout⟩ := takeFault_draw s r
    exact ⟨hconsumed, hout, by rw [State.takeFault_draws]; omega⟩
  | launch hnb _ => exact absurd hb hnb
  | complete _ _ => cases herr
  | ignored _ => simp [hb] at herr
  | block _ _ _ _ _ _ => simp [hb] at herr
  | scratch _ _ => simp [hb] at herr

/-- Settles O48: no effect of an instruction writes IN or a launch argument, and the words it writes lie below NVAL. -/
theorem engineKeepsInputAndWordsPastNval : Obligations.EngineKeepsInputAndWordsPastNval := by
  intro i s t h
  cases exec_effect h with
  | ignored _ => exact ⟨fun _ => rfl, rfl, rfl, rfl, rfl, fun _ _ => rfl⟩
  | launch _ _ => exact ⟨fun _ => rfl, rfl, rfl, rfl, rfl, fun _ _ => rfl⟩
  | scratch _ _ => exact ⟨fun _ => rfl, rfl, rfl, rfl, rfl, fun _ _ => rfl⟩
  | complete _ _ => exact ⟨fun _ => rfl, rfl, rfl, rfl, rfl, fun _ _ => rfl⟩
  | fault _ r =>
    obtain ⟨-, -, -, -, -, -, -, -, -, -, hout⟩ := takeFault_entry s r
    exact ⟨fun _ => rfl, rfl, rfl, rfl, rfl, hout⟩
  | block _ hr vs len ok hf =>
    obtain ⟨-, -, -, -, -, hout⟩ := commitBlock_advance s len (ok hf).count
    have hcount := s.blockCount_le
    have hend := State.op_add_remaining hr
    exact ⟨fun _ => rfl, rfl, rfl, rfl, rfl, fun k hk => hout k (.inr (by omega))⟩

theorem startLaunch_next {s t : State} (h : s.startLaunch = .next t) :
    s.runState = .busy ∧ t = s ∨ s.runState ≠ .busy ∧ t = s.enterLaunch := by
  unfold State.startLaunch at h
  split_ifs at h with hb hl
  · cases h
    exact .inl ⟨hb, rfl⟩
  · cases h
    exact .inr ⟨hb, rfl⟩

/-- Of the host's register writes only START changes STATE (10_state.md R28, R30, R31). -/
theorem writeReg_runState {s t : State} {index : Nat} {v : Word64} (h : s.writeReg index v = .next t) :
    t.runState = s.runState ∨
      s.runState ≠ .busy ∧ t.runState = .busy ∧ index = 0 ∧ v.getLsbD 0 = true := by
  unfold State.writeReg at h
  split_ifs at h with h0 hv
  · obtain ⟨-, rfl⟩ | ⟨hb, rfl⟩ := startLaunch_next h
    · exact .inl rfl
    · exact .inr ⟨hb, rfl, h0, hv⟩
  all_goals cases h; exact .inl rfl

/-- What a host access does to STATE: START launches, a reset idles, nothing else changes it (10_state.md R28, R29). -/
theorem hostAct_runState {a : HostAccess} {s t : State} (h : hostAct a s = .next t) :
    t.runState = s.runState ∨
      (s.runState ≠ .busy ∧ t.runState = .busy ∧ ∃ v, a = .writeReg 0 v ∧ v.getLsbD 0 = true) ∨
      (t.runState = .idle ∧ a = .reset) := by
  cases a with
  | writeReg index v =>
    obtain h | ⟨hb, ht, rfl, hv⟩ := writeReg_runState h
    · exact .inl h
    · exact .inr (.inl ⟨hb, ht, v, rfl, hv⟩)
  | reset =>
    cases h
    exact .inr (.inr ⟨rfl, rfl⟩)
  | readReg _ =>
    cases h
    exact .inl rfl
  | writeIn _ _ | writeOut _ _ | readOut _ =>
    simp only [hostAct] at h
    split_ifs at h <;> cases h <;> exact .inl rfl

/-- The engine's step of a launch in progress, by its effect: a block decoded, a fault taken with values left, or the
completion (44_stream_driver.md section 1). -/
theorem enabledStep_next {s t : State} (hb : s.runState = .busy) (h : exec s.enabledStep s = .next t) :
    (s.op = s.nval ∧ t = { s with consumed := s.ip, runState := .done }) ∨
      BlockEnabled s ∧ runBlock s = .next t := by
  unfold State.enabledStep at h
  split_ifs at h with hd h256
  · rw [exec_stepDone_of_enabled hb hd] at h
    cases h
    exact .inl ⟨hd, rfl⟩
  · rw [exec_stepV_of_enabled hb h256] at h
    exact .inr ⟨⟨hb, by omega⟩, h⟩
  · simp only [exec, execStepS] at h
    split_ifs at h with hen
    exact .inr ⟨⟨hb, hen.2.1⟩, h⟩

/-- A block at `IP` in an enabled state ends in the fault it raises or commits its values. -/
theorem runBlock_next {s t : State} (he : BlockEnabled s) (h : runBlock s = .next t) :
    (∃ r, block s.input s.ip.toNat s.blockCount s.blockMode = .error r ∧ t = s.takeFault r) ∨
      ∃ vs len, block s.input s.ip.toNat s.blockCount s.blockMode = .ok (vs, len) ∧
        t = s.commitBlock vs len s.blockCount := by
  rw [runBlock_of_enabled he] at h
  split at h
  · next r hr =>
    cases h
    exact .inl ⟨r, hr, rfl⟩
  · next vs len hok =>
    cases h
    exact .inr ⟨vs, len, hok, rfl⟩

theorem State.op_ne_nval_of_remaining {s : State} (hr : 0 < s.remaining) : s.op ≠ s.nval := by
  intro h
  simp [State.remaining, h] at hr

/-- Settles O47: STATE is moved by the host's START and reset, by the completion, and by a fault of a block. -/
theorem onlyListedStateTransitions : Obligations.OnlyListedStateTransitions := by
  intro s t h
  obtain ⟨a, rest, hturn, hhost⟩ | ⟨rest, -, ⟨hb, hexec⟩ | ⟨-, rfl⟩⟩ := step_cases h
  · obtain hsame | ⟨hb, ht, v, rfl, hv⟩ | ⟨ht, rfl⟩ := hostAct_runState hhost
    · exact .inl hsame
    · exact .inr (.inl ⟨hb, ht, v, rest, hturn, hv⟩)
    · exact .inr (.inr (.inr (.inr ⟨ht, rest, hturn⟩)))
  · obtain ⟨hd, rfl⟩ | ⟨he, hrun⟩ := enabledStep_next (s := { s with turns := rest }) hb hexec
    · exact .inr (.inr (.inl ⟨hb, rfl, hd, rfl⟩))
    · obtain ⟨r, -, rfl⟩ | ⟨vs, len, -, rfl⟩ := runBlock_next he hrun
      · obtain ⟨hmin, hmax⟩ := raise_code_bounds r
        exact .inr (.inr (.inr (.inl ⟨hb, rfl, State.op_ne_nval_of_remaining he.2, hmin, hmax, rfl, rfl⟩)))
      · exact .inl rfl
  · exact .inl rfl

end Sys2Proof.Machine
end

section
/-! Proofs of the statements on the decoder and the encoder, from 30_encoding.md and the opcode table. -/

namespace Sys2Proof

open Sys2Proof.Machine

theorem headerByte_shape_width (h : Byte) : headerByte (headerShape h) (headerWidth h) = h := by
  apply BitVec.eq_of_toNat_eq
  simp only [headerByte, headerShape, headerWidth, BitVec.toNat_append, BitVec.extractLsb'_toNat, Nat.shiftRight_zero]
  rw [← Nat.shiftLeft_add_eq_or_of_lt (Nat.mod_lt _ (by decide)), Nat.shiftLeft_eq, Nat.shiftRight_eq_div_pow]
  have := h.isLt
  omega

@[simp] theorem headerShape_headerByte (shape : BitVec 2) (b : BitVec 6) : headerShape (headerByte shape b) = shape :=
  BitVec.extractLsb'_append_eq_left

@[simp] theorem headerWidth_headerByte (shape : BitVec 2) (b : BitVec 6) : headerWidth (headerByte shape b) = b :=
  BitVec.extractLsb'_append_eq_right

/-- What the decoder answers for one byte in one context: an instruction the encodings admit there, whose opcode byte is that
byte (30_encoding.md R97). -/
structure DecodesTo (sp : Space) (x : Byte) (i : Instr) : Prop where
  wf : i.wf = true
  inSpace : sp ∈ i.spaces
  encodes : encode i = [x]

theorem shape_eq_three : ∀ shape : BitVec 2, shape ≠ 0 → shape ≠ 1 → shape ≠ 2 → shape = 3 := by decide

theorem encode_header {h : Byte} {shape : BitVec 2} (hs : headerShape h = shape) :
    [headerByte shape (headerWidth h)] = [h] := by
  rw [← hs, headerByte_shape_width]

theorem ofNat_of_toNat {x : Byte} {n : Nat} (h : x.toNat = n) : BitVec.ofNat 8 n = x := by
  rw [← h, BitVec.ofNat_toNat, BitVec.setWidth_eq]

theorem decodeHeader_decodesTo (h : Byte) : DecodesTo .header h (decodeHeader h) := by
  simp only [decodeHeader]
  split_ifs with hw hbp hbpvx hbpbx
  · exact ⟨by simpa [Instr.wf, widthOk, headerWidth] using hw, by simp [Instr.spaces], rfl⟩
  · exact ⟨by simpa [Instr.wf, widthOk] using hw, by simp [Instr.spaces], encode_header hbp⟩
  · exact ⟨by simpa [Instr.wf, widthOk] using hw, by simp [Instr.spaces], encode_header hbpvx⟩
  · exact ⟨by simpa [Instr.wf, widthOk] using hw, by simp [Instr.spaces], encode_header hbpbx⟩
  · have hconst := shape_eq_three (headerShape h) hbp hbpvx hbpbx
    exact ⟨by simpa [Instr.wf, widthOk] using hw, by simp [Instr.spaces], encode_header hconst⟩

theorem decodeVbLead_decodesTo {sp : Space} {x : Byte} (hsp : sp = .vbLead ∨ sp = .runFirst ∧ x.toNat ≠ 255) :
    DecodesTo sp x (decodeVbLead x) := by
  have hspaces : sp ∈ [Space.runFirst, .vbLead] := by obtain rfl | ⟨rfl, -⟩ := hsp <;> simp
  unfold decodeVbLead
  split_ifs with h1 h2 h3 h4 h5
  · exact ⟨by simpa [Instr.wf] using h1, hspaces, rfl⟩
  · exact ⟨by simp [Instr.wf]; omega, hspaces, rfl⟩
  · exact ⟨by simp [Instr.wf]; omega, hspaces, rfl⟩
  · exact ⟨rfl, hspaces, congrArg ([·]) (ofNat_of_toNat h4)⟩
  · exact ⟨rfl, hspaces, congrArg ([·]) (ofNat_of_toNat h5)⟩
  · refine ⟨by simp [Instr.wf]; omega, ?_, rfl⟩
    obtain rfl | ⟨rfl, h255⟩ := hsp
    · simp only [Instr.spaces]; split_ifs <;> simp
    · simp [Instr.spaces, h255]

theorem decodeByte_decodesTo (sp : Space) (x : Byte) : DecodesTo sp x (decodeByte sp x) := by
  cases sp with
  | header => exact decodeHeader_decodesTo x
  | vbLead => exact decodeVbLead_decodesTo (.inl rfl)
  | runFirst =>
    simp only [decodeByte, decodeRunFirst]
    split_ifs with h
    · exact ⟨rfl, by simp [Instr.spaces], congrArg ([·]) (ofNat_of_toNat h)⟩
    · exact decodeVbLead_decodesTo (.inr ⟨rfl, h⟩)

/-- The opcode table, row by row: in each context every byte selects the one row of the instruction it decodes to. -/
theorem tableRows_select (sp : Space) (x : Byte) :
    (tableRows.filter fun r => r.selects sp x).map TableRow.mnemonic = [(decodeByte sp x).mnemonic] := by
  revert x
  cases sp <;> decide +kernel

/-- Settles O1: the decoder answers the instruction of the row the byte selects. -/
theorem decodeFollowsOpcodeTable : Obligations.DecodeFollowsOpcodeTable :=
  fun sp x _ => ⟨decodeByte sp x, rfl, (decodeByte_decodesTo sp x).wf, tableRows_select sp x⟩

theorem decodeHeader_headerByte {b : BitVec 6} (hb : b.toNat ≤ 32) :
    decodeHeader (headerByte 0 b) = .bp b ∧ decodeHeader (headerByte 1 b) = .bpvx b ∧
      decodeHeader (headerByte 2 b) = .bpbx b ∧ decodeHeader (headerByte 3 b) = .const b := by
  simp [decodeHeader, hb.not_gt]

/-- A lead byte decodes as in every later codeword where it can stand first. -/
theorem decodeByte_of_vbLead {sp : Space} {x : Byte} (hsp : sp ∈ [Space.runFirst, .vbLead])
    (h : sp = .runFirst → x.toNat ≠ 255) : decodeByte sp x = decodeVbLead x := by
  cases sp with
  | header => simp at hsp
  | vbLead => rfl
  | runFirst => exact if_neg (h rfl)

/-- The decoder reads an encoded instruction back from its opcode byte. -/
theorem decodeByte_encode {i : Instr} {sp : Space} (hwf : i.wf = true) (hsp : sp ∈ i.spaces) :
    ∃ x, encode i = [x] ∧ decodeByte sp x = i := by
  cases i with
  | bp b | bpvx b | bpbx b | const b =>
    obtain rfl := List.mem_singleton.1 hsp
    obtain ⟨hbp, hbpvx, hbpbx, hconst⟩ := decodeHeader_headerByte (of_decide_eq_true hwf)
    exact ⟨_, rfl, by assumption⟩
  | illegalHeader h =>
    obtain rfl := List.mem_singleton.1 hsp
    have hw : 32 < (headerWidth h).toNat := by simpa [Instr.wf, widthOk, headerWidth] using hwf
    exact ⟨h, rfl, if_pos hw⟩
  | vb1 x =>
    have hx : x.toNat ≤ 176 := of_decide_eq_true hwf
    exact ⟨x, rfl, (decodeByte_of_vbLead hsp (by omega)).trans (if_pos hx)⟩
  | vb2 x =>
    have hx : 177 ≤ x.toNat ∧ x.toNat ≤ 240 := by simpa [Instr.wf] using hwf
    exact ⟨x, rfl, (decodeByte_of_vbLead hsp (by omega)).trans (by grind [decodeVbLead])⟩
  | vb3 x =>
    have hx : 241 ≤ x.toNat ∧ x.toNat ≤ 248 := by simpa [Instr.wf] using hwf
    exact ⟨x, rfl, (decodeByte_of_vbLead hsp (by omega)).trans (by grind [decodeVbLead])⟩
  | vb4 => exact ⟨_, rfl, decodeByte_of_vbLead hsp fun _ => by decide⟩
  | vb5 => exact ⟨_, rfl, decodeByte_of_vbLead hsp fun _ => by decide⟩
  | reservedVbLead x =>
    have hx : 251 ≤ x.toNat := of_decide_eq_true hwf
    have hlead : decodeVbLead x = .reservedVbLead x := by grind [decodeVbLead]
    obtain h255 | h255 := eq_or_ne x.toNat 255
    · obtain rfl : sp = .vbLead := by simpa [Instr.spaces, h255] using hsp
      exact ⟨x, rfl, hlead⟩
    · have hsp : sp ∈ [Space.runFirst, .vbLead] := by simpa [Instr.spaces, h255] using hsp
      exact ⟨x, rfl, (decodeByte_of_vbLead hsp fun _ => h255).trans hlead⟩
  | vbraw =>
    obtain rfl := List.mem_singleton.1 hsp
    exact ⟨_, rfl, rfl⟩
  | unpackS _ _ _ | unpackV _ _ | vbdec _ _ | launch | stepV | stepS | stepDone => cases hsp

/-- Settles O2: one direction reads the opcode byte back, the other is what the decoder answers for a byte. -/
theorem encodedInstructionDecodesBack : Obligations.EncodedInstructionDecodesBack := by
  refine ⟨fun i sp rest hwf hsp => ?back, fun i sp bytes rest h => ?admitted⟩
  case back =>
    obtain ⟨x, henc, hdec⟩ := decodeByte_encode hwf hsp
    rw [henc, List.singleton_append, decode, hdec]
  case admitted =>
    cases bytes with
    | nil => cases h
    | cons x bytes =>
      cases h
      obtain ⟨hwf, hsp, henc⟩ := decodeByte_decodesTo sp x
      exact ⟨hwf, hsp, by rw [henc, List.singleton_append]⟩

/-- Settles O3: the decoder evaluated on each opcode byte. -/
theorem sampleBytesDecode : Obligations.SampleBytesDecode :=
  ⟨rfl, rfl, rfl, rfl, rfl, rfl, rfl, rfl, rfl, rfl, rfl, rfl, rfl, rfl⟩

end Sys2Proof
end

section
/-! Proofs of the statements of 42_vbdec.md. -/

namespace Sys2Proof.Machine

open Sys2Proof.Safety

section exec
variable (s : State)

theorem exec_vb1 (x : Byte) : exec (.vb1 x) s = codewordStep s fun _ _ => .ok (vb1 x) := rfl
theorem exec_vb2 (x : Byte) : exec (.vb2 x) s = codewordStep s fun i p => vb2 i p x := rfl
theorem exec_vb3 (x : Byte) : exec (.vb3 x) s = codewordStep s fun i p => vb3 i p x := rfl
theorem exec_vb4 : exec .vb4 s = codewordStep s vb4 := rfl
theorem exec_vb5 : exec .vb5 s = codewordStep s vb5 := rfl

theorem exec_reservedVbLead (x : Byte) :
    exec (.reservedVbLead x) s = codewordStep s fun _ _ => .error (.invalidVBLead x.toNat) := rfl

theorem exec_vbraw : exec .vbraw s = scratchStep s (fun i sc => do
    let _ ← memRead i sc.vp.toNat 1
    let (es, len) ← vbraw i sc.vp.toNat sc.nex.toNat
    .ok (sc.putRun sc.vp.toNat es len)) := rfl

theorem exec_vbdec (a : Word64) (n : BitVec 9) : exec (.vbdec a n) s = scratchStep s (fun i sc => do
    let (es, len) ← vbdec i a.toNat n.toNat
    .ok ({ sc with nex := n }.putRun a.toNat es len)) := rfl

end exec

section codewordStep
variable {s : State}

/-- A codeword that decodes is recorded, its lead byte being readable. -/
theorem codewordStep_of_ok {body : Input → Nat → Except Raise (Word32 × Nat)} {e : Word32} {len : Nat}
    (hb : s.runState = .busy) (hr : Readable s.input s.scratch.vp.toNat 1)
    (h : body s.input s.scratch.vp.toNat = .ok (e, len)) :
    ∃ t, codewordStep s body = .next t ∧ Pushed s t e len := by
  refine ⟨_, scratchStep_of_ok (sc := s.scratch.pushValue e len) hb ?_, rfl⟩
  simp only [memRead_of_readable hr, h, ok_bind]

/-- What a codeword raises is taken, its lead byte being readable (60_exceptions.md R196). -/
theorem codewordStep_of_error {body : Input → Nat → Except Raise (Word32 × Nat)} {r : Raise}
    (hb : s.runState = .busy) (hr : Readable s.input s.scratch.vp.toNat 1)
    (h : body s.input s.scratch.vp.toNat = .error r) :
    ∃ t, codewordStep s body = .next t ∧ FaultEntry s t r.code r.info := by
  refine ⟨_, scratchStep_of_error (r := r) hb ?_, takeFault_entry s r⟩
  simp only [memRead_of_readable hr, h, ok_bind, error_bind]

theorem codewordStep_of_truncated {body : Input → Nat → Except Raise (Word32 × Nat)} {q : Nat}
    (hb : s.runState = .busy) (hr : Readable s.input s.scratch.vp.toNat 1)
    (h : body s.input s.scratch.vp.toNat = .error (.truncatedInput q)) :
    ∃ t, codewordStep s body = .next t ∧ FaultEntry s t 1 (BitVec.ofNat 64 q) := codewordStep_of_error hb hr h

end codewordStep

/-- The bytes after the lead byte put it below the read bound. -/
theorem readable_lead {i : Input} {p k : Nat} (hk : k ≠ 0) (h : Readable i (p + 1) k) : Readable i p 1 := by
  have := h.resolve_left hk
  exact .inr (by omega)

theorem le_bytesAt_three (i : Input) (a : Nat) :
    le (i.bytesAt a 3) = (readIn i.bytes a).toNat + (readIn i.bytes (a + 1)).toNat * 2 ^ 8
      + (readIn i.bytes (a + 2)).toNat * 2 ^ 16 := by
  simp [Input.bytesAt, List.range_succ, le]; omega

/-- VB4 keeps the low three of the four bytes it fetches (42_vbdec.md R135). -/
theorem le_bytesAt_four_and_mask (i : Input) (a : Nat) :
    le (i.bytesAt a 4) &&& 0x00FFFFFF = le (i.bytesAt a 3) := by
  have hlow : le (i.bytesAt a 3) < 2 ^ 24 := by simpa using le_lt (i.bytesAt a 3)
  have hsplit : le (i.bytesAt a 4) = le (i.bytesAt a 3) + (readIn i.bytes (a + 3)).toNat * 2 ^ 24 := by
    rw [le_bytesAt_four, le_bytesAt_three]
  rw [show 0x00FFFFFF = 2 ^ 24 - 1 from rfl, Nat.and_two_pow_sub_one_eq_mod, hsplit]
  omega

section codewords
variable {i : Input} {p : Nat} {x : Byte}

theorem vb2_of_readable (h : Readable i (p + 1) 1) :
    vb2 i p x = .ok (BitVec.ofNat 32 ((x.toNat - 177) * 2 ^ 8 + (readIn i.bytes (p + 1)).toNat + 177), 2) := by
  simp only [vb2, memRead_one (h.resolve_left one_ne_zero), ok_bind, Nat.shiftLeft_eq]

theorem vb3_of_readable (h : Readable i (p + 1) 2) :
    vb3 i p x = .ok (BitVec.ofNat 32 ((x.toNat - 241) * 2 ^ 16 + le (i.bytesAt (p + 1) 2) + 16561), 3) := by
  simp only [vb3, memRead_of_readable h, ok_bind, Nat.shiftLeft_eq]

theorem vb4_of_readable (h : Readable i (p + 1) 4) :
    vb4 i p = .ok (BitVec.ofNat 32 (le (i.bytesAt (p + 1) 3)), 4) := by
  simp only [vb4, memRead_of_readable h, ok_bind, le_bytesAt_four_and_mask]

theorem vb5_of_readable (h : Readable i (p + 1) 4) :
    vb5 i p = .ok (BitVec.ofNat 32 (le (i.bytesAt (p + 1) 4)), 5) := by
  simp only [vb5, memRead_of_readable h, ok_bind]

theorem vb2_of_not_readable (h : ¬ Readable i (p + 1) 1) : vb2 i p x = .error (.truncatedInput (p + 1)) := by
  rw [vb2, memRead_of_not_readable h, error_bind]

theorem vb3_of_not_readable (h : ¬ Readable i (p + 1) 2) : vb3 i p x = .error (.truncatedInput (p + 1)) := by
  rw [vb3, memRead_of_not_readable h, error_bind]

theorem vb4_of_not_readable (h : ¬ Readable i (p + 1) 4) : vb4 i p = .error (.truncatedInput (p + 1)) := by
  rw [vb4, memRead_of_not_readable h, error_bind]

theorem vb5_of_not_readable (h : ¬ Readable i (p + 1) 4) : vb5 i p = .error (.truncatedInput (p + 1)) := by
  rw [vb5, memRead_of_not_readable h, error_bind]

end codewords

/-- Settles O21: VB1 reads nothing after its lead byte. -/
theorem vb1Value : Obligations.Vb1Value := by
  intro s x hb _ hr
  have hvalue : vb1 x = (BitVec.ofNat 32 x.toNat, 1) := by rw [vb1, BitVec.ofNat_toNat]
  rw [exec_vb1]
  exact codewordStep_of_ok hb hr (congrArg Except.ok hvalue)

/-- Settles O22: one byte after the lead byte, or the fault at its address. -/
theorem vb2Value : Obligations.Vb2Value := by
  intro s x hb _
  rw [exec_vb2]
  exact ⟨fun h => codewordStep_of_ok hb (readable_lead one_ne_zero h) (vb2_of_readable h),
    fun hr h => codewordStep_of_truncated hb hr (vb2_of_not_readable h)⟩

/-- Settles O23: two bytes after the lead byte, read as one, or the fault at their address. -/
theorem vb3Value : Obligations.Vb3Value := by
  intro s x hb _
  rw [exec_vb3]
  refine ⟨fun h => ?_, fun hr h => codewordStep_of_truncated hb hr (vb3_of_not_readable h)⟩
  have hvalue := vb3_of_readable (x := x) h
  rw [le_bytesAt_two, ← Nat.add_assoc] at hvalue
  exact codewordStep_of_ok hb (readable_lead two_ne_zero h) hvalue

/-- Settles O24: four bytes after the lead byte must be readable, the low three are the value. -/
theorem vb4Value : Obligations.Vb4Value := by
  intro s hb
  rw [exec_vb4]
  refine ⟨fun h => ?_, fun hr h => codewordStep_of_truncated hb hr (vb4_of_not_readable h)⟩
  have hvalue := vb4_of_readable h
  rw [le_bytesAt_three] at hvalue
  exact codewordStep_of_ok hb (readable_lead four_ne_zero h) hvalue

/-- Settles O25: the value is the little-endian word after the lead byte. -/
theorem vb5Value : Obligations.Vb5Value := by
  intro s hb
  rw [exec_vb5]
  refine ⟨fun h => ?_, fun hr h => codewordStep_of_truncated hb hr (vb5_of_not_readable h)⟩
  have hvalue := vb5_of_readable h
  rw [ofNat_le_bytesAt_four] at hvalue
  exact codewordStep_of_ok hb (readable_lead four_ne_zero h) hvalue

theorem decodeVbLead_reserved {x : Byte} (hx : 251 ≤ x.toNat) : decodeVbLead x = .reservedVbLead x := by
  grind [decodeVbLead]

/-- Settles O26: a lead byte past the ranges of all five codewords raises whatever follows. -/
theorem reservedLeadTakesInvalidVBLead : Obligations.ReservedLeadTakesInvalidVBLead := by
  intro s x hx
  refine ⟨decodeVbLead_reserved hx, fun hle => ?_, fun hb hr => ?_⟩
  · exact (if_neg (by omega)).trans (decodeVbLead_reserved hx)
  · rw [exec_reservedVbLead]
    exact codewordStep_of_error (r := .invalidVBLead x.toNat) hb hr rfl

section scratchSteps
variable {s : State}

theorem takeFault_truncated (s : State) (a : Word64) :
    FaultEntry s (s.takeFault (.truncatedInput a.toNat)) 1 a := by
  have h := takeFault_entry s (.truncatedInput a.toNat)
  rwa [show Raise.info (.truncatedInput a.toNat) = a by simp [Raise.info]] at h

/-- VBRAW's run at a readable sentinel is recorded. -/
theorem exec_vbraw_of_ok {es : List Word32} {len : Nat} (hb : s.runState = .busy)
    (hr : Readable s.input s.scratch.vp.toNat 1)
    (h : vbraw s.input s.scratch.vp.toNat s.scratch.nex.toNat = .ok (es, len)) :
    ∃ t, exec .vbraw s = .next t ∧ RunRecorded s t s.scratch.vp.toNat s.scratch.nex es len := by
  rw [exec_vbraw]
  refine ⟨_, scratchStep_of_ok hb ?_, putRun_recorded s s.scratch.vp.toNat s.scratch.nex es len⟩
  simp only [memRead_of_readable hr, h, ok_bind]

theorem exec_vbraw_of_error {r : Raise} (hb : s.runState = .busy)
    (h : (memRead s.input s.scratch.vp.toNat 1 >>= fun _ => vbraw s.input s.scratch.vp.toNat s.scratch.nex.toNat) = .error r) :
    exec .vbraw s = .next (s.takeFault r) := by
  rw [exec_vbraw]
  refine scratchStep_of_error hb ?_
  obtain h | ⟨_, hr, h⟩ := bind_error_iff.1 h
  · simp only [h, error_bind]
  · simp only [hr, h, ok_bind, error_bind]

/-- What VBDEC answers is recorded. -/
theorem exec_vbdec_of_ok {a : Word64} {n : BitVec 9} {es : List Word32} {len : Nat} (hb : s.runState = .busy)
    (h : vbdec s.input a.toNat n.toNat = .ok (es, len)) :
    exec (.vbdec a n) s =
      .next { s with scratch := ({ s.scratch with nex := n } : Scratch).putRun a.toNat es len } := by
  rw [exec_vbdec]
  refine scratchStep_of_ok hb ?_
  simp only [h, ok_bind]

/-- What VBDEC raises is taken. -/
theorem exec_vbdec_of_error {a : Word64} {n : BitVec 9} {r : Raise} (hb : s.runState = .busy)
    (h : vbdec s.input a.toNat n.toNat = .error r) : exec (.vbdec a n) s = .next (s.takeFault r) := by
  rw [exec_vbdec]
  refine scratchStep_of_error hb ?_
  simp only [h, error_bind]

theorem exec_vbdec_recorded {a : Word64} {n : BitVec 9} {es : List Word32} {len : Nat} (hb : s.runState = .busy)
    (h : vbdec s.input a.toNat n.toNat = .ok (es, len)) :
    ∃ t, exec (.vbdec a n) s = .next t ∧ RunRecorded s t a.toNat n es len :=
  ⟨_, exec_vbdec_of_ok hb h, putRun_recorded s a.toNat n es len⟩

theorem vbraw_of_not_readable {i : Input} {a n : Nat} (h : ¬ Readable i (a + 1) (4 * n)) :
    vbraw i a n = .error (.truncatedInput (a + 1)) := by
  rw [vbraw, memRead_of_not_readable h, error_bind]

/-- Settles O27: the sentinel is read, then the words, as one. -/
theorem vbrawCopiesWords : Obligations.VbrawCopiesWords := by
  intro s hb hr
  refine ⟨fun h => exec_vbraw_of_ok hb hr (vbraw_of_readable h), fun h => ?_⟩
  refine ⟨_, exec_vbraw_of_error (r := .truncatedInput _) hb ?_, takeFault_entry s _⟩
  rw [memRead_of_readable hr, ok_bind, vbraw_of_not_readable h]

end scratchSteps

section run
variable {i : Input} {a n : Nat}

/-- VBDEC's first byte lies past the bound. -/
theorem vbdec_of_not_readable (hn : 0 < n) (h : ¬ Readable i a 1) : vbdec i a n = .error (.truncatedInput a) := by
  rw [vbdec, if_neg fun h0 => hn.ne' h0.1, memRead_of_not_readable h, error_bind]

/-- A run of values whose first byte is the sentinel is raw (42_vbdec.md R131). -/
theorem vbdec_of_sentinel (hn : 0 < n) (h : Readable i a 1) (hx : (readIn i.bytes a).toNat = 255) :
    vbdec i a n = vbraw i a n := by
  rw [vbdec, if_neg fun h0 => hn.ne' h0.1, memRead_one (h.resolve_left one_ne_zero), ok_bind, if_pos hx]

/-- A run of values whose first byte is not the sentinel is its codewords (42_vbdec.md R130). -/
theorem vbdec_of_not_sentinel (hn : 0 < n) (hx : (readIn i.bytes a).toNat ≠ 255) :
    vbdec i a n = (codewords i a n >>= fun r => .ok (r.1, r.2 - a)) := by
  obtain ⟨k, rfl⟩ := Nat.exists_eq_succ_of_ne_zero hn.ne'
  by_cases h : Readable i a 1
  · rw [vbdec, if_neg fun h0 => hn.ne' h0.1, memRead_one (h.resolve_left one_ne_zero), ok_bind, if_neg hx]
  · rw [vbdec_of_not_readable hn h, codewords, memRead_of_not_readable h, error_bind, error_bind]

/-- An empty run (42_vbdec.md R139, log entry 7). -/
theorem vbdec_empty : vbdec i a 0 =
    if Config.vbdecEmptyChecksSentinel = true then
      if i.len + 32 ≤ a then .error (.truncatedInput a)
      else .ok ([], if (readIn i.bytes a).toNat = 255 then 1 else 0)
    else .ok ([], 0) := by
  cases hp : Config.vbdecEmptyChecksSentinel with
  | false => simp [vbdec, hp]
  | true =>
    obtain hr | hr := Nat.lt_or_ge a (i.len + 32)
    · by_cases hx : (readIn i.bytes a).toNat = 255
      · simp [vbdec, hp, memRead_one hr, hx, hr.not_ge, vbraw_of_readable (n := 0) (.inl rfl)]
      · simp [vbdec, hp, memRead_one hr, hx, hr.not_ge, codewords]
    · have : ¬ Readable i a 1 := fun h => by have := h.resolve_left one_ne_zero; omega
      simp [vbdec, hp, memRead_of_not_readable this, hr]

end run

/-- Settles O30: the sentinel test comes before any lead byte is interpreted. -/
theorem vbdecSentinelRunIsRaw : Obligations.VbdecSentinelRunIsRaw := by
  intro s a n hb _ hn hr hx
  have hraw := vbdec_of_sentinel hn hr hx
  refine ⟨fun h => exec_vbdec_recorded hb (hraw.trans (vbraw_of_readable h)), fun h => ?_⟩
  exact ⟨_, exec_vbdec_of_error hb (hraw.trans (vbraw_of_not_readable h)), takeFault_entry s _⟩

/-- Settles O31: both values of the open parameter, and with the test the byte past the bound, the sentinel, another byte. -/
theorem vbdecEmptyRun : Obligations.VbdecEmptyRun := by
  intro s a hb
  have hempty := vbdec_empty (i := s.input) (a := a.toNat)
  by_cases hp : Config.vbdecEmptyChecksSentinel = true
  · simp only [hp, ite_true, true_and] at hempty ⊢
    by_cases hr : s.inlen.toNat + 32 ≤ a.toNat
    · simp only [hr, ite_true]
      exact ⟨_, exec_vbdec_of_error hb (hempty.trans (if_pos hr)), takeFault_truncated s a⟩
    · simp only [hr, ite_false]
      exact exec_vbdec_recorded hb (hempty.trans (if_neg hr))
  · rw [if_neg hp] at hempty
    simp only [hp, false_and, ite_false, Bool.false_eq_true]
    exact exec_vbdec_recorded hb hempty

/-- Settles O28: every codeword, VBRAW and VBDEC first read the byte at their address. -/
theorem leadBytePastBoundTakesTruncatedInput : Obligations.LeadBytePastBoundTakesTruncatedInput := by
  intro s hb
  refine ⟨fun hr x i hi => ⟨_, ?_, takeFault_truncated s s.scratch.vp⟩, fun a n _ hn hr => ?_⟩
  · simp only [List.mem_cons, List.not_mem_nil, or_false] at hi
    have hcodeword {body} : codewordStep s body = .next (s.takeFault (.truncatedInput s.scratch.vp.toNat)) :=
      codewordStep_of_not_readable hb hr
    obtain rfl | rfl | rfl | rfl | rfl | rfl | rfl := hi
    · rw [exec_vb1, hcodeword]
    · rw [exec_vb2, hcodeword]
    · rw [exec_vb3, hcodeword]
    · rw [exec_vb4, hcodeword]
    · rw [exec_vb5, hcodeword]
    · rw [exec_reservedVbLead, hcodeword]
    · refine exec_vbraw_of_error hb ?_
      rw [memRead_of_not_readable hr, error_bind]
  · exact ⟨_, exec_vbdec_of_error hb (vbdec_of_not_readable hn hr), takeFault_truncated s a⟩

end Sys2Proof.Machine
end

section
/-! Proofs that VBDEC decodes canonical runs back and is its codewords, from 42_vbdec.md. -/

namespace Sys2Proof.Machine

open Sys2Proof.Safety

/-- The bytes of a list stand in IN from an address on. -/
def BytesAt (i : Input) (p : Nat) (l : List Byte) : Prop := ∀ k (h : k < l.length), readIn i.bytes (p + k) = l[k]

theorem BytesAt.head {i : Input} {p : Nat} {x : Byte} {l : List Byte} (h : BytesAt i p (x :: l)) : readIn i.bytes p = x :=
  h 0 (Nat.succ_pos _)

theorem BytesAt.tail {i : Input} {p : Nat} {x : Byte} {l : List Byte} (h : BytesAt i p (x :: l)) :
    BytesAt i (p + 1) l := by
  intro k hk
  rw [Nat.add_assoc, Nat.add_comm 1 k]
  exact h (k + 1) (Nat.succ_lt_succ hk)

theorem BytesAt.left {i : Input} {p : Nat} {l r : List Byte} (h : BytesAt i p (l ++ r)) : BytesAt i p l := by
  intro k hk
  rw [h k (by rw [List.length_append]; omega), List.getElem_append_left hk]

theorem BytesAt.right {i : Input} {p : Nat} {l r : List Byte} (h : BytesAt i p (l ++ r)) :
    BytesAt i (p + l.length) r := by
  intro k hk
  rw [Nat.add_assoc, h (l.length + k) (by rw [List.length_append]; omega),
    List.getElem_append_right (Nat.le_add_right _ _)]
  simp

theorem BytesAt.bytesAt {i : Input} {p : Nat} {l : List Byte} (h : BytesAt i p l) : i.bytesAt p l.length = l := by
  refine List.ext_getElem (i.length_bytesAt _ _) fun k hk _ => ?_
  rw [← h k (by simpa using hk)]
  simp [Input.bytesAt]

@[simp] theorem length_leBytes (k : Nat) : ∀ v, (leBytes k v).length = k := by
  induction k with
  | zero => exact fun _ => rfl
  | succ k ih => exact fun v => congrArg (· + 1) (ih (v / 256))

/-- The little-endian bytes of a value read back as its low bytes (20_memory.md R50). -/
theorem le_leBytes (k : Nat) : ∀ v, le (leBytes k v) = v % 256 ^ k := by
  induction k with
  | zero => intro v; rw [Nat.pow_zero, Nat.mod_one]; rfl
  | succ k ih => intro v; rw [leBytes, le, ih, Nat.pow_succ', Nat.mod_mul, BitVec.toNat_ofNat]

theorem BytesAt.le_bytesAt {i : Input} {p k v : Nat} (h : BytesAt i p (leBytes k v)) :
    le (i.bytesAt p k) = v % 256 ^ k := by
  have hbytes := h.bytesAt
  rw [length_leBytes] at hbytes
  rw [hbytes, le_leBytes]

section codeword
variable {i : Input} {p : Nat} {x : Byte}

theorem codeword_of_vb2 (h : 177 ≤ x.toNat) (h' : x.toNat ≤ 240) : codeword i p x = vb2 i p x := by
  rw [codeword, if_neg (by omega), if_pos h']

theorem codeword_of_vb3 (h : 241 ≤ x.toNat) (h' : x.toNat ≤ 248) : codeword i p x = vb3 i p x := by
  rw [codeword, if_neg (by omega), if_neg (by omega), if_pos h']

/-- A canonical codeword, with one byte readable after it, decodes to its value and its length, and does not start with the
sentinel (42_vbdec.md R138). -/
theorem codeword_encodeVb {e : Word32} (h : BytesAt i p (encodeVb e)) (hr : p + (encodeVb e).length + 1 ≤ i.len + 32) :
    codeword i p (readIn i.bytes p) = .ok (e, (encodeVb e).length) ∧ (readIn i.bytes p).toNat ≤ 250 := by
  have hlt := e.isLt
  have hvalue {n : Nat} (h : n = e.toNat) : BitVec.ofNat 32 n = e := by rw [h, BitVec.ofNat_toNat, BitVec.setWidth_eq]
  simp only [encodeVb] at h hr ⊢
  split_ifs at h hr ⊢ with h1 h2 h3 h4 <;> simp only [List.length_cons, length_leBytes] at hr ⊢
  · have hlead : (readIn i.bytes p).toNat = e.toNat := by rw [h.head, BitVec.toNat_ofNat]; omega
    have hvb1 : vb1 (readIn i.bytes p) = (e, 1) := by rw [vb1, ← BitVec.ofNat_toNat, hvalue hlead]
    exact ⟨by rw [codeword, if_pos (by omega), hvb1], by omega⟩
  · have hlead : (readIn i.bytes p).toNat = 177 + (e.toNat - 177) / 256 := by rw [h.head, BitVec.toNat_ofNat]; omega
    have htail : (readIn i.bytes (p + 1)).toNat = (e.toNat - 177) % 256 := by rw [h.tail.head, BitVec.toNat_ofNat]
    refine ⟨?_, by omega⟩
    rw [codeword_of_vb2 (by omega) (by omega), vb2_of_readable (.inr (by omega)), hvalue (by omega)]
  · have hlead : (readIn i.bytes p).toNat = 241 + (e.toNat - 16561) / 65536 := by rw [h.head, BitVec.toNat_ofNat]; omega
    have htail : le (i.bytesAt (p + 1) 2) = (e.toNat - 16561) % 65536 := h.tail.le_bytesAt
    refine ⟨?_, by omega⟩
    rw [codeword_of_vb3 (by omega) (by omega), vb3_of_readable (.inr (by omega)), hvalue (by omega)]
  · have hlead : readIn i.bytes p = 249 := h.head
    refine ⟨?_, by rw [hlead]; decide⟩
    rw [hlead]
    refine (vb4_of_readable (.inr (by omega))).trans ?_
    rw [h.tail.le_bytesAt, hvalue (by omega)]
  · have hlead : readIn i.bytes p = 250 := h.head
    refine ⟨?_, by rw [hlead]; decide⟩
    rw [hlead]
    refine (vb5_of_readable (.inr (by omega))).trans ?_
    rw [h.tail.le_bytesAt, hvalue (by omega)]

end codeword

theorem encodeVbRun_cons (e : Word32) (es : List Word32) : encodeVbRun (e :: es) = encodeVb e ++ encodeVbRun es :=
  List.flatMap_cons

/-- One codeword after the other: the lead byte, the codeword, the rest (42_vbdec.md R130). -/
theorem codewords_succ {i : Input} {p : Nat} (h : p < i.len + 32) (k : Nat) :
    codewords i p (k + 1) = (codeword i p (readIn i.bytes p) >>= fun r =>
      codewords i (p + r.2) k >>= fun t => .ok (r.1 :: t.1, t.2)) := by
  rw [codewords, memRead_one h, ok_bind, BitVec.ofNat_toNat, BitVec.setWidth_eq]

/-- Canonical codewords back to back decode to their values, with one byte readable after the last. -/
theorem codewords_encodeVbRun {i : Input} (es : List Word32) : ∀ {p : Nat}, BytesAt i p (encodeVbRun es) →
    p + (encodeVbRun es).length + 1 ≤ i.len + 32 →
    codewords i p es.length = .ok (es, p + (encodeVbRun es).length) := by
  induction es with
  | nil => exact fun _ _ => rfl
  | cons e es ih =>
    intro p h hr
    rw [encodeVbRun_cons] at h
    rw [encodeVbRun_cons, List.length_append] at hr ⊢
    obtain ⟨hcode, -⟩ := codeword_encodeVb h.left (by omega)
    rw [List.length_cons, codewords_succ (by omega), hcode, ok_bind, ih h.right (by omega), ok_bind, Nat.add_assoc]

/-- A canonical run decodes to its values and its exact length, with one byte readable after it (42_vbdec.md R138). -/
theorem vbdec_encodeVbRun {i : Input} {p : Nat} {es : List Word32} (hne : es ≠ []) (h : BytesAt i p (encodeVbRun es))
    (hr : p + (encodeVbRun es).length + 1 ≤ i.len + 32) :
    vbdec i p es.length = .ok (es, (encodeVbRun es).length) := by
  have hfirst : (readIn i.bytes p).toNat ≠ 255 := by
    obtain ⟨e, es, rfl⟩ := List.exists_cons_of_ne_nil hne
    rw [encodeVbRun_cons] at h hr
    rw [List.length_append] at hr
    have := (codeword_encodeVb h.left (by omega)).2
    omega
  rw [vbdec_of_not_sentinel (List.length_pos_of_ne_nil hne) hfirst, codewords_encodeVbRun es h hr,
    ok_bind, Nat.add_sub_cancel_left]

/-- Settles O32, by induction on the run: each codeword decodes back, and none starts with the sentinel. -/
theorem canonicalVbRunDecodesBack : Obligations.CanonicalVbRunDecodesBack := by
  intro s a es hb hmin hmax hbytes hr
  have hcount : (BitVec.ofNat 9 es.length).toNat = es.length := by rw [BitVec.toNat_ofNat]; omega
  refine exec_vbdec_recorded hb ?_
  rw [hcount]
  exact vbdec_encodeVbRun (List.ne_nil_of_length_pos hmin) hbytes (hr.resolve_left (Nat.succ_ne_zero _))

/-- What the first of `k + 1` codewords does: the lead byte is read, then the codeword decodes (42_vbdec.md R130). -/
def leadCodeword (i : Input) (p : Nat) : Except Raise (Word32 × Nat) :=
  memRead i p 1 >>= fun x => codeword i p (BitVec.ofNat 8 x)

theorem codewords_eq_leadCodeword (i : Input) (p k : Nat) :
    codewords i p (k + 1) = (leadCodeword i p >>= fun r => codewords i (p + r.2) k >>= fun t => .ok (r.1 :: t.1, t.2)) := by
  rw [codewords, leadCodeword]
  cases memRead i p 1 <;> rfl

theorem exec_decodeVbLead_eq_codewordStep (x : Byte) (s : State) :
    ∃ body, exec (decodeVbLead x) s = codewordStep s body := by
  unfold decodeVbLead
  split_ifs
  · exact ⟨_, exec_vb1 s x⟩
  · exact ⟨_, exec_vb2 s x⟩
  · exact ⟨_, exec_vb3 s x⟩
  · exact ⟨_, exec_vb4 s⟩
  · exact ⟨_, exec_vb5 s⟩
  · exact ⟨_, exec_reservedVbLead s x⟩

section leadCodeword
variable {s : State}

/-- The codeword at `vp`, executed as the instruction its lead byte decodes to, is recorded. -/
theorem exec_leadCodeword_of_ok {e : Word32} {len : Nat} (hb : s.runState = .busy)
    (h : leadCodeword s.input s.scratch.vp.toNat = .ok (e, len)) :
    exec (decodeVbLead (readIn s.inMem s.scratch.vp.toNat)) s =
      .next { s with scratch := s.scratch.pushValue e len } := by
  obtain ⟨x, hx, hcode⟩ := bind_ok_iff.1 h
  obtain ⟨hr, rfl⟩ := memRead_one_ok hx
  rw [BitVec.ofNat_toNat, BitVec.setWidth_eq] at hcode
  rw [exec_decodeVbLead hb hr, ← State.input_bytes, hcode]

/-- What it raises, the read of its lead byte included, is taken. -/
theorem exec_leadCodeword_of_error {r : Raise} (hb : s.runState = .busy)
    (h : leadCodeword s.input s.scratch.vp.toNat = .error r) :
    exec (decodeVbLead (readIn s.inMem s.scratch.vp.toNat)) s = .next (s.takeFault r) := by
  obtain h | ⟨x, hx, hcode⟩ := bind_error_iff.1 h
  · obtain ⟨h1, hend, rfl⟩ := memRead_error_iff.1 h
    obtain ⟨body, hbody⟩ := exec_decodeVbLead_eq_codewordStep (readIn s.inMem s.scratch.vp.toNat) s
    rw [hbody, codewordStep_of_not_readable hb fun hr => by have := hr.resolve_left h1; omega]
  · obtain ⟨hr, rfl⟩ := memRead_one_ok hx
    rw [BitVec.ofNat_toNat, BitVec.setWidth_eq] at hcode
    rw [exec_decodeVbLead hb hr, ← State.input_bytes, hcode]

/-- A codeword that decodes leaves `vp` where the next one starts: it wraps in no legal launch. -/
theorem pushValue_vp_toNat {e : Word32} {len : Nat} (hl : s.inlen.toNat ≤ Config.maxInlen)
    (h : leadCodeword s.input s.scratch.vp.toNat = .ok (e, len)) :
    (s.scratch.pushValue e len).vp.toNat = s.scratch.vp.toNat + len := by
  obtain ⟨x, hx, hcode⟩ := bind_ok_iff.1 h
  obtain ⟨-, -, hend⟩ := codeword_ok ((memRead_ok_iff.1 hx).1.resolve_left one_ne_zero) hcode
  rw [State.input_len] at hend
  rw [Scratch.pushValue, BitVec.toNat_ofNat, Nat.mod_eq_of_lt (by simp only [Config.maxInlen] at hl; omega)]

end leadCodeword

/-- `es` recorded one by one from `sc` on: in EX from index `i` on, `i` advanced by their count, `p` at `q`. -/
structure ValuesPushed (sc sc' : Scratch) (es : List Word32) (q : Nat) : Prop where
  frame : sc' = { sc with ex := sc'.ex, vi := sc'.vi, vp := sc'.vp, len := sc'.len }
  vi : sc'.vi.toNat = sc.vi.toNat + es.length
  vp : sc'.vp = BitVec.ofNat 64 q
  ex : ∀ k (h : k < Config.excap), sc'.ex[k] = if sc.vi.toNat ≤ k then es.getD (k - sc.vi.toNat) sc.ex[k] else sc.ex[k]

theorem valuesPushed_nil (sc : Scratch) : ValuesPushed sc sc [] sc.vp.toNat where
  frame := rfl
  vi := rfl
  vp := by simp
  ex := by simp

theorem pushValue_vi_toNat {sc : Scratch} {e : Word32} {len : Nat} (h : sc.vi.toNat + 1 < 2 ^ 9) :
    (sc.pushValue e len).vi.toNat = sc.vi.toNat + 1 := by
  rw [Scratch.pushValue, BitVec.toNat_add]
  exact Nat.mod_eq_of_lt h

theorem valuesPushed_cons {sc sc' : Scratch} {e : Word32} {es : List Word32} {len q : Nat} (hvi : sc.vi.toNat + 1 < 2 ^ 9)
    (h : ValuesPushed (sc.pushValue e len) sc' es q) : ValuesPushed sc sc' (e :: es) q := by
  obtain ⟨hframe, hi, hp, hex⟩ := h
  have hpush := pushValue_vi_toNat (e := e) (len := len) hvi
  refine ⟨hframe, ?_, hp, fun k hk => ?_⟩
  · rw [hi, hpush, List.length_cons]; omega
  · have hset : (sc.pushValue e len).ex[k] = if sc.vi.toNat = k then e else sc.ex[k] := Vector.getElem_setIfInBounds hk
    rw [hex k hk, hpush, hset]
    obtain hlt | rfl | hgt := Nat.lt_trichotomy k sc.vi.toNat
    · rw [if_neg (by omega), if_neg (by omega), if_neg (by omega)]
    · rw [if_neg (by omega), if_pos rfl, if_pos le_rfl, Nat.sub_self, List.getD_cons_zero]
    · rw [if_pos (by omega), if_neg (by omega), if_pos (by omega), show k - sc.vi.toNat = k - (sc.vi.toNat + 1) + 1 by omega,
        List.getD_cons_succ]

theorem runCodewords_succ {s t : State} (k : Nat)
    (h : exec (decodeVbLead (readIn s.inMem s.scratch.vp.toNat)) s = .next t) :
    runCodewords (k + 1) s = if t.runState = .busy then runCodewords k t else .next t := by
  simp only [runCodewords, h]

/-- Codewords that decode, executed one after the other, are recorded one after the other. -/
theorem runCodewords_of_ok (k : Nat) : ∀ {s : State} {es : List Word32} {q : Nat}, s.runState = .busy →
    s.inlen.toNat ≤ Config.maxInlen → s.scratch.vi.toNat + k < 2 ^ 9 →
    codewords s.input s.scratch.vp.toNat k = .ok (es, q) →
    ∃ sc, runCodewords k s = .next { s with scratch := sc } ∧ ValuesPushed s.scratch sc es q := by
  induction k with
  | zero =>
    intro s es q _ _ _ h
    cases h
    exact ⟨s.scratch, rfl, valuesPushed_nil s.scratch⟩
  | succ k ih =>
    intro s es q hb hl hvi h
    rw [codewords_eq_leadCodeword] at h
    obtain ⟨⟨e, len⟩, hlead, h⟩ := bind_ok_iff.1 h
    obtain ⟨⟨es', q'⟩, hrest, h⟩ := bind_ok_iff.1 h
    cases h
    have hi := pushValue_vi_toNat (sc := s.scratch) (e := e) (len := len) (by omega)
    obtain ⟨sc, hrun, hpushed⟩ := ih (s := { s with scratch := s.scratch.pushValue e len }) hb hl
      (by rw [hi]; omega) (by rw [pushValue_vp_toNat hl hlead]; exact hrest)
    refine ⟨sc, ?_, valuesPushed_cons (by omega) hpushed⟩
    rw [runCodewords_succ k (exec_leadCodeword_of_ok hb hlead)]
    exact (if_pos hb).trans hrun

/-- What one of them raises is taken, whatever was recorded before it. -/
theorem runCodewords_of_error (k : Nat) : ∀ {s : State} {r : Raise}, s.runState = .busy →
    s.inlen.toNat ≤ Config.maxInlen → codewords s.input s.scratch.vp.toNat k = .error r →
    ∃ sc, runCodewords k s = .next (({ s with scratch := sc } : State).takeFault r) := by
  induction k with
  | zero => intro s r _ _ h; cases h
  | succ k ih =>
    intro s r hb hl h
    rw [codewords_eq_leadCodeword] at h
    obtain hlead | ⟨⟨e, len⟩, hlead, h⟩ := bind_error_iff.1 h
    · refine ⟨s.scratch, ?_⟩
      rw [runCodewords_succ k (exec_leadCodeword_of_error hb hlead)]
      exact if_neg (by simp)
    · obtain hrest | ⟨_, -, h⟩ := bind_error_iff.1 h
      · obtain ⟨sc, hrun⟩ := ih (s := { s with scratch := s.scratch.pushValue e len }) hb hl
          (by rw [pushValue_vp_toNat hl hlead]; exact hrest)
        refine ⟨sc, ?_⟩
        rw [runCodewords_succ k (exec_leadCodeword_of_ok hb hlead)]
        exact (if_pos hb).trans hrun
      · cases h

theorem codewords_start_le {i : Input} {a n q : Nat} {es : List Word32} (hn : 0 < n)
    (h : codewords i a n = .ok (es, q)) : a ≤ q := by
  obtain ⟨k, rfl⟩ := Nat.exists_eq_succ_of_ne_zero hn.ne'
  obtain ⟨x, hx, -⟩ := bind_ok_iff.1 h
  have hread := (memRead_ok_iff.1 hx).1.resolve_left one_ne_zero
  exact (codewords_ok _ (by omega) h).2.1

/-- A run pushed from index 0 on is the run recorded as a whole, up to the length. -/
theorem putRun_eq_of_valuesPushed {sc sc' : Scratch} {a : Word64} {n : BitVec 9} {es : List Word32} {q len : Nat}
    (h : ValuesPushed { sc with nex := n, vp := a, vi := 0 } sc' es q) (hq : a.toNat + len = q) :
    ({ sc with nex := n } : Scratch).putRun a.toNat es len = { sc' with len := BitVec.ofNat 64 len } := by
  obtain ⟨hframe, hi, hp, hex⟩ := h
  have hfill : fill sc.ex es = sc'.ex := Vector.ext fun k hk => by simpa using (hex k hk).symm
  have hcount : sc'.vi.toNat = es.length := by simpa using hi
  have hvi : BitVec.ofNat 9 es.length = sc'.vi := by rw [← hcount, BitVec.ofNat_toNat, BitVec.setWidth_eq]
  rw [hframe, Scratch.putRun, hfill, hvi, hq, ← hp]

/-- Settles O29, by induction on the run: each codeword of VBDEC and the instruction its lead byte decodes to answer alike. -/
theorem vbdecIsItsCodewords : Obligations.VbdecIsItsCodewords := by
  intro s t a n hb hwf hn hl hx h
  have hmax : n.toNat ≤ 255 := of_decide_eq_true hwf
  have hrun := vbdec_of_not_sentinel (i := s.input) (a := a.toNat) hn hx
  cases hc : codewords s.input a.toNat n.toNat with
  | error r =>
    rw [hc, error_bind] at hrun
    rw [exec_vbdec_of_error hb hrun] at h
    cases h
    obtain ⟨sc, hu⟩ := runCodewords_of_error n.toNat
      (s := { s with scratch := { s.scratch with nex := n, vp := a, vi := 0 } }) hb hl hc
    exact ⟨_, hu, fun _ => ⟨r.code, r.info, takeFault_entry s r, takeFault_entry { s with scratch := sc } r⟩,
      fun hbusy => by cases hbusy⟩
  | ok run =>
    obtain ⟨es, q⟩ := run
    rw [hc, ok_bind] at hrun
    rw [exec_vbdec_of_ok hb hrun] at h
    cases h
    obtain ⟨sc, hu, hpushed⟩ := runCodewords_of_ok n.toNat
      (s := { s with scratch := { s.scratch with nex := n, vp := a, vi := 0 } }) hb hl (by simp; omega) hc
    refine ⟨_, hu, fun herr => ?_, fun _ => ?_⟩
    · exact absurd (hb.symm.trans herr) (by decide)
    · have hq : a.toNat + (q - a.toNat) = q := Nat.add_sub_cancel' (codewords_start_le hn hc)
      rw [putRun_eq_of_valuesPushed hpushed hq]

end Sys2Proof.Machine
end

section
/-! Proofs of the statements of 43_pfor_block.md, and of 30_encoding.md on the length of a block. -/

namespace Sys2Proof.Machine

open Sys2Proof.Safety

theorem exec_bp (b : BitVec 6) (s : State) :
    exec (.bp b) s = blockStep s fun i a n m => bp i a n m b.toNat := rfl

theorem exec_const (b : BitVec 6) (s : State) :
    exec (.const b) s = blockStep s fun i a n _ => const i a n b.toNat := rfl

section blockStep
variable {s : State} {body : Input → Nat → Nat → Mode → Except Raise (List Word32 × Nat)}

/-- A block step whose body answers: the frame, and the values written position by position. -/
theorem blockStep_decodes {w : List Word32} {len : Nat} {value : Nat → Word32} (he : BlockEnabled s) (hr : HeaderReadable s)
    (h : body s.input s.ip.toNat s.blockCount s.blockMode = .ok (w, len)) (hlen : w.length = s.blockCount)
    (hvalue : ∀ p < s.blockCount, w.getD p 0 = value p) :
    ∃ t, blockStep s body = .next t ∧ BlockAdvance s t len s.blockCount ∧
      ∀ p < s.blockCount, t.out.read (s.op.toNat + p) = value p := by
  refine ⟨_, blockStep_of_ok he hr h, commitBlock_advance s len hlen, fun p hp => ?_⟩
  have hp' : p < w.length := hlen ▸ hp
  rw [commitBlock_read s w len _ p hp', ← hvalue p hp, List.getD_eq_getElem _ _ hp']

/-- An instruction that is a block step whose body raises TruncatedInput. -/
theorem blockStep_truncated {i : Instr} {q : Nat} (hi : exec i s = blockStep s body) (he : BlockEnabled s)
    (hr : HeaderReadable s) (h : body s.input s.ip.toNat s.blockCount s.blockMode = .error (.truncatedInput q)) :
    ∃ t, exec i s = .next t ∧ FaultEntry s t 1 (BitVec.ofNat 64 q) := by
  rw [hi]
  exact blockStep_faultEntry he hr h

theorem blockStep_header_past {i : Instr} (hi : exec i s = blockStep s body) (he : BlockEnabled s)
    (hr : ¬ HeaderReadable s) : ∃ t, exec i s = .next t ∧ FaultEntry s t 1 (BitVec.ofNat 64 s.ip.toNat) :=
  ⟨_, hi.trans (blockStep_of_not_readable he hr), takeFault_entry s _⟩

end blockStep

section bodies
variable {i : Input} {a n b : Nat} {m : Mode}

theorem bp_of_readable (hm : m = .V → n = 256) (h : Readable i (a + 1) (mainLen n b m)) :
    bp i a n m b = .ok ((List.range n).map (mainValue i (a + 1) b · m), 1 + mainLen n b m) := by
  simp only [bp, unpackM_of_readable hm h, ok_bind]

theorem bp_main_past (h : ¬ Readable i (a + 1) (mainLen n b m)) : bp i a n m b = .error (.truncatedInput (a + 1)) := by
  simp only [bp, unpackM_of_not_readable h, error_bind]

theorem const_value_past (h : ¬ Readable i (a + 1) ((b + 7) / 8)) : const i a n b = .error (.truncatedInput (a + 1)) := by
  simp only [const, cdiv_eight, memRead_of_not_readable h, error_bind]

theorem bpvx_nex_past (h : ¬ Readable i (a + 1) 1) : bpvx i a n m b = .error (.truncatedInput (a + 1)) := by
  simp only [bpvx, memRead_of_not_readable h, error_bind]

theorem bpvx_main_past (h1 : Readable i (a + 1) 1) (h : ¬ Readable i (a + 2) (mainLen n b m)) :
    bpvx i a n m b = .error (.truncatedInput (a + 2)) := by
  simp only [bpvx, memRead_of_readable h1, ok_bind, unpackM_of_not_readable h, error_bind]

/-- BPVX raises what its VB run raises, the fields before it being readable. -/
theorem bpvx_run_error {r : Raise} (hm : m = .V → n = 256) (h1 : Readable i (a + 1) 1)
    (h2 : Readable i (a + 2) (mainLen n b m))
    (h : vbdec i (a + 2 + mainLen n b m) (readIn i.bytes (a + 1)).toNat = .error r) : bpvx i a n m b = .error r := by
  simp only [bpvx, memRead_one (h1.resolve_left one_ne_zero), ok_bind, unpackM_of_readable hm h2, h, error_bind]

theorem bpvx_indices_past {e : List Word32} {lv : Nat} (hm : m = .V → n = 256) (h1 : Readable i (a + 1) 1)
    (h2 : Readable i (a + 2) (mainLen n b m))
    (hv : vbdec i (a + 2 + mainLen n b m) (readIn i.bytes (a + 1)).toNat = .ok (e, lv))
    (h : ¬ Readable i (a + 2 + mainLen n b m + lv) (readIn i.bytes (a + 1)).toNat) :
    bpvx i a n m b = .error (.truncatedInput (a + 2 + mainLen n b m + lv)) := by
  simp only [bpvx, memRead_one (h1.resolve_left one_ne_zero), ok_bind, unpackM_of_readable hm h2, hv,
    memRead_of_not_readable h, error_bind]

end bodies

/-- Settles O5: BP is its main payload, unpacked by mode. -/
theorem bpDecodesBlock : Obligations.BpDecodesBlock := by
  intro s b he hr _ hmain
  rw [exec_bp]
  exact blockStep_decodes he hr (bp_of_readable s.blockMode_V hmain) (by simp) fun p hp => by simp [hp]

/-- Settles O6: CONST repeats one masked value. -/
theorem constDecodesBlock : Obligations.ConstDecodesBlock := by
  intro s b he hr hb hvalue
  rw [exec_const]
  exact blockStep_decodes he hr (const_of_readable hb hvalue) (by simp) fun p hp => by simp [hp]

/-- Settles O7: BPVX ORs into each position the patches of its index. -/
theorem bpvxDecodesBlock : Obligations.BpvxDecodesBlock := by
  intro s b e lv a n m lm nex q he hr _ hnex hmain hrun hq hidx
  obtain ⟨w, hw, hlen, hvalue⟩ := bpvx_of_readable (i := s.input) s.blockMode_V hnex hmain hrun hq hidx
  rw [exec_bpvx]
  exact blockStep_decodes he hr hw hlen hvalue

/-- Settles O8: BPBX adds to each set position the patch of its rank. -/
theorem bpbxDecodesBlock : Obligations.BpbxDecodesBlock := by
  intro s b a n m lm bx lb lx he hr _ hbx hlegal hbitmap hexc hmain
  obtain ⟨w, hw, hlen, hvalue⟩ := bpbx_of_readable (i := s.input) s.blockMode_V hbx hlegal hbitmap hexc hmain
  rw [exec_bpbx]
  exact blockStep_decodes he hr hw hlen hvalue

/-- Settles O9: an unpacked value lies below `2^b` and a patch is a multiple of it, so adding carries nothing. -/
theorem bpbxAddAgreesWithOr : Obligations.BpbxAddAgreesWithOr := by
  intro s t b a n m bx lb lx _ h hbusy p hp
  rw [exec_bpbx] at h
  obtain ⟨-, -, ⟨r, -, rfl⟩ | ⟨vs, len, -, hok, rfl⟩⟩ := blockStep_next h
  · cases hbusy
  · obtain ⟨hbx, hlegal, hbitmap, hexc, hmain⟩ := bpbx_ok_readable hok
    obtain ⟨w, hw, hlen, hvalue⟩ := bpbx_of_readable s.blockMode_V hbx hlegal hbitmap hexc hmain
    cases hok.symm.trans hw
    have hp' : p < vs.length := hlen ▸ hp
    rw [commitBlock_read s vs _ _ p hp', ← List.getD_eq_getElem vs 0 hp', hvalue p hp]
    split_ifs
    · exact add_patch_eq_or _ _ _ (mainValue_lt _ _ _ _ _)
    · exact (BitVec.add_zero _).trans BitVec.or_zero.symm

/-- Settles O13: field by field, the first read past the bound is the one that raises. -/
theorem blockFieldsPastBoundTakeTruncatedInput : Obligations.BlockFieldsPastBoundTakeTruncatedInput := by
  intro s b a n m lm nex bx lb lx truncated he _
  have hbp := exec_bp b s
  have hconst := exec_const b s
  have hbpvx := exec_bpvx b s
  have hbpbx := exec_bpbx b s
  refine ⟨fun hr i hi => ?header, fun hr => ⟨?bp, ?const, ?second, ?bpvxMain, ?bpvxIndices, ?bpbx⟩⟩
  case header =>
    simp only [List.mem_cons, List.not_mem_nil, or_false] at hi
    obtain rfl | rfl | rfl | rfl := hi
    · exact blockStep_header_past hbp he hr
    · exact blockStep_header_past hbpvx he hr
    · exact blockStep_header_past hbpbx he hr
    · exact blockStep_header_past hconst he hr
  case bp => exact fun h => blockStep_truncated hbp he hr (bp_main_past h)
  case const => exact fun h => blockStep_truncated hconst he hr (const_value_past h)
  case second =>
    exact fun h => ⟨blockStep_truncated hbpvx he hr (bpvx_nex_past h), blockStep_truncated hbpbx he hr (bpbx_nex_past h)⟩
  case bpvxMain => exact fun h1 h => blockStep_truncated hbpvx he hr (bpvx_main_past h1 h)
  case bpvxIndices =>
    exact fun e lv h1 h2 hv h => blockStep_truncated hbpvx he hr (bpvx_indices_past s.blockMode_V h1 h2 hv h)
  case bpbx =>
    exact fun h1 hbx => ⟨fun h => blockStep_truncated hbpbx he hr (bpbx_bitmap_past h1 hbx h),
      fun h2 h => blockStep_truncated hbpbx he hr (bpbx_exceptions_past h1 hbx h2 h),
      fun h2 h3 h => blockStep_truncated hbpbx he hr (bpbx_main_past h1 hbx h2 h3 h)⟩

/-- A run of values whose first byte is a reserved lead byte raises InvalidVBLead (42_vbdec.md R137). -/
theorem vbdec_of_reserved {i : Input} {a n : Nat} (hn : 0 < n) (hr : Readable i a 1)
    (hmin : 251 ≤ (readIn i.bytes a).toNat) (hmax : (readIn i.bytes a).toNat ≤ 254) :
    vbdec i a n = .error (.invalidVBLead (readIn i.bytes a).toNat) := by
  obtain ⟨k, rfl⟩ := Nat.exists_eq_succ_of_ne_zero hn.ne'
  have hcode : codeword i a (readIn i.bytes a) = .error (.invalidVBLead (readIn i.bytes a).toNat) := by
    rw [codeword, if_neg (by omega), if_neg (by omega), if_neg (by omega), if_neg (by omega), if_neg (by omega)]
  rw [vbdec_of_not_sentinel hn (by omega), codewords_succ (hr.resolve_left one_ne_zero), hcode, error_bind, error_bind]

/-- Settles O14: the VB run comes after the main payload, and what it raises the block takes. -/
theorem bpvxTakesTheFaultOfItsVbRun : Obligations.BpvxTakesTheFaultOfItsVbRun := by
  intro s b a lm nex x he hr _ h1 h2
  have htake (r : Raise) (h : vbdec s.input (a + 2 + lm) nex = .error r) :
      ∃ t, exec (.bpvx b) s = .next t ∧ FaultEntry s t r.code r.info := by
    rw [exec_bpvx]
    exact blockStep_faultEntry he hr (bpvx_run_error s.blockMode_V h1 h2 h)
  exact ⟨htake, fun hn hread hmin hmax => htake (.invalidVBLead x) (vbdec_of_reserved hn hread hmin hmax),
    fun hn hread => htake (.truncatedInput _) (vbdec_of_not_readable hn hread)⟩

section lengths
variable {i : Input} {a n : Nat} {m : Mode}

theorem codewords_end_le (n : Nat) : ∀ {p q : Nat} {es : List Word32}, codewords i p n = .ok (es, q) → q ≤ p + 5 * n := by
  induction n with
  | zero => intro p q es h; cases h; exact le_rfl
  | succ n ih =>
    intro p q es h
    simp only [codewords, bind_ok_iff] at h
    obtain ⟨x, hx, ⟨e, len⟩, hcode, ⟨es', q'⟩, hrest, h⟩ := h
    cases h
    have hlen := codeword_ok ((memRead_ok_iff.1 hx).1.resolve_left one_ne_zero) hcode
    have := ih hrest
    omega

/-- A VB run takes at most five bytes per value, and an empty one at most its sentinel (30_encoding.md R88). -/
theorem vbdec_length_le {len : Nat} {es : List Word32} (h : vbdec i a n = .ok (es, len)) : len ≤ max (5 * n) 1 := by
  unfold vbdec at h
  split_ifs at h with h0
  · cases h; omega
  · obtain ⟨x, hx, h⟩ := bind_ok_iff.1 h
    split_ifs at h with hs
    · have := vbraw_ok ((memRead_ok_iff.1 hx).1.resolve_left one_ne_zero) h
      omega
    · obtain ⟨⟨es', q⟩, hc, h⟩ := bind_ok_iff.1 h
      cases h
      have := codewords_end_le n hc
      omega

theorem mul_le_of_bounds {b : Nat} (hn : n ≤ 256) (hb : b ≤ 32) : n * b ≤ 8192 := Nat.mul_le_mul hn hb

theorem mainLen_le {b : Nat} (hn : n ≤ 256) (hb : b ≤ 32) : mainLen n b m ≤ 1024 := by
  have := mul_le_of_bounds hn hb
  cases m <;> simp only [mainLen] <;> omega

theorem bpvx_length_le {b : Nat} {r : List Word32 × Nat} (hm : m = .V → n = 256) (hn : n ≤ 256) (hb : b ≤ 32)
    (h : bpvx i a n m b = .ok r) : r.2 ≤ 2556 := by
  simp only [bpvx, bind_ok_iff] at h
  obtain ⟨nex, hnex, ⟨v, lm⟩, hmain, ⟨e, lv⟩, hrun, x, -, w, -, h⟩ := h
  cases h
  obtain ⟨-, hnex⟩ := memRead_one_ok hnex
  have hbyte := (readIn i.bytes (a + 1)).isLt
  have hlm : lm ≤ 1024 := (unpackM_ok hm hmain).2.1.trans_le (mainLen_le hn hb)
  have hlv := vbdec_length_le hrun
  simp only
  omega

theorem bpbx_length_le {b : Nat} {r : List Word32 × Nat} (hm : m = .V → n = 256) (hn : n ≤ 256) (hb : b ≤ 32)
    (h : bpbx i a n m b = .ok r) : r.2 ≤ 2556 := by
  simp only [bpbx, bind_ok_iff, cdiv_eight] at h
  obtain ⟨bx, -, h⟩ := h
  split_ifs at h with hbx
  simp only [bind_ok_iff] at h
  obtain ⟨bitmap, -, ⟨e, lx⟩, hexc, ⟨v, lm⟩, hmain, h⟩ := h
  cases h
  have hpos : (bitmapPositions bitmap n).length ≤ n := (List.length_filter_le _ _).trans_eq List.length_range
  have hlx := (unpackS_ok hexc).2.1
  have hmul : (bitmapPositions bitmap n).length * bx ≤ 8192 := mul_le_of_bounds (hpos.trans hn) (by omega)
  have hlm : lm ≤ 1024 := (unpackM_ok hm hmain).2.1.trans_le (mainLen_le hn hb)
  simp only
  omega

theorem bp_length_le {b : Nat} {r : List Word32 × Nat} (hm : m = .V → n = 256) (hn : n ≤ 256) (hb : b ≤ 32)
    (h : bp i a n m b = .ok r) : r.2 ≤ 2556 := by
  obtain ⟨⟨v, lm⟩, hmain, h⟩ := bind_ok_iff.1 h
  cases h
  have hlm : lm ≤ 1024 := (unpackM_ok hm hmain).2.1.trans_le (mainLen_le hn hb)
  simp only
  omega

theorem const_length_le {b : Nat} {r : List Word32 × Nat} (hb : b ≤ 32) (h : const i a n b = .ok r) : r.2 ≤ 2556 := by
  obtain ⟨c, -, h⟩ := bind_ok_iff.1 h
  cases h
  simp only [cdiv_eight]
  omega

/-- The longest block is BPVX in mode V with `b = 32` and 255 codewords VB5 (30_encoding.md R91). -/
theorem block_length_le {r : List Word32 × Nat} (hm : m = .V → n = 256) (hn : n ≤ 256) (h : block i a n m = .ok r) :
    r.2 ≤ 2556 := by
  obtain ⟨x, -, h⟩ := bind_ok_iff.1 h
  simp only at h
  split_ifs at h with hw hbp hbpvx hbpbx
  · exact bp_length_le hm hn (by omega) h
  · exact bpvx_length_le hm hn (by omega) h
  · exact bpbx_length_le hm hn (by omega) h
  · exact const_length_le (by omega) h

theorem block_start_lt {r : List Word32 × Nat} (h : block i a n m = .ok r) : a < i.len + 32 := by
  obtain ⟨x, hx, -⟩ := bind_ok_iff.1 h
  exact (memRead_ok_iff.1 hx).1.resolve_left one_ne_zero

end lengths

/-- Settles O38: each body's fields bound its length, and the header byte makes it at least 1. -/
theorem blockLengthBounds : Obligations.BlockLengthBounds := by
  intro i a n m v len hn hm h
  obtain ⟨hcount, hpos, -⟩ := block_ok hm (block_start_lt h).le h
  exact ⟨hcount, hpos, block_length_le hm hn h⟩

end Sys2Proof.Machine
end

section
/-! Proofs of the statements on the sequencer's steps and on whole runs, from 44_stream_driver.md. -/

namespace Sys2Proof.Machine

open Sys2Proof.Safety

/-- Settles O34: the launch step checks the payload length before it enters the launch. -/
theorem launchOutsideSpecIsRefused : Obligations.LaunchOutsideSpecIsRefused := by
  intro s hb hl
  rw [exec_launch, State.startLaunch, if_neg hb, if_pos hl]

theorem step_of_no_turns {s : State} (ht : s.turns = []) : step s = engineStep s := by
  simp only [step, move, ht]

theorem step_of_engineTurn {s : State} {ts : List Turn} (ht : s.turns = .engine :: ts) :
    step s = engineStep { s with turns := ts } := by
  simp only [step, move, ht]

/-- The engine runs the instruction its header byte decodes to (43_pfor_block.md R150). -/
theorem engineStep_of_decode {s : State} {i : Instr} {rest : List Byte} (he : BlockEnabled s) (hr : HeaderReadable s)
    (hdec : decode .header (s.input.bytesAt s.ip.toNat 1) = .ok (i, rest)) : engineStep s = exec i s := by
  have hbyte : s.input.bytesAt s.ip.toNat 1 = [readIn s.inMem s.ip.toNat] := rfl
  rw [hbyte] at hdec
  cases hdec
  exact (engineStep_of_enabled he).trans (runBlock_of_readable hr)

/-- Settles O39: with nothing queued or the engine's turn queued, the step is the engine's. -/
theorem stepRunsDecodedInstruction : Obligations.StepRunsDecodedInstruction := by
  intro s i rest he hr hdec _
  exact ⟨fun ht => (step_of_no_turns ht).trans (engineStep_of_decode he hr hdec),
    fun ts ht => (step_of_engineTurn ht).trans (engineStep_of_decode (s := { s with turns := ts }) he hr hdec)⟩

/-- Settles O40: `NVAL - OP` selects the enabled step, and outside BUSY there is none. -/
theorem stepRunsEnabledSequencerStep : Obligations.StepRunsEnabledSequencerStep := by
  intro s ht
  rw [step_of_no_turns ht]
  refine ⟨fun hb (h256 : 256 ≤ s.remaining) => ?stepV, fun hb (h0 : 0 < s.remaining) (h256 : s.remaining < 256) => ?stepS,
    fun hb hd => ?stepDone, fun hb => if_neg hb⟩
  case stepV =>
    rw [engineStep, if_pos hb, State.enabledStep, if_neg (State.op_ne_nval_of_remaining (by omega)), if_pos h256]
  case stepS =>
    rw [engineStep, if_pos hb, State.enabledStep, if_neg (State.op_ne_nval_of_remaining h0), if_neg h256.not_ge]
  case stepDone => rw [engineStep, if_pos hb, State.enabledStep, if_pos hd]

theorem blockEnabled_of_ne {s : State} (hb : s.runState = .busy) (hop : s.op.toNat ≤ s.nval.toNat) (hne : s.op ≠ s.nval) :
    BlockEnabled s := by
  have : s.op.toNat ≠ s.nval.toNat := fun h => hne (BitVec.eq_of_toNat_eq h)
  exact ⟨hb, by unfold State.remaining; omega⟩

theorem step_of_enabled {s : State} (he : BlockEnabled s) (ht : s.turns = []) : step s = runBlock s :=
  (step_of_no_turns ht).trans (engineStep_of_enabled he)

/-- Settles O43: a block that decodes is committed, its cursors advanced without wrapping. -/
theorem blockStepAdvancesCursors : Obligations.BlockStepAdvancesCursors := by
  intro s t hi hb hne ht h hbusy
  obtain ⟨hlegal, hip, hop, -⟩ := machineInv_busy hi hb
  have he := blockEnabled_of_ne hb hop hne
  rw [step_of_enabled he ht] at h
  obtain ⟨r, -, rfl⟩ | ⟨vs, len, hok, rfl⟩ := runBlock_next he h
  · cases hbusy
  · have ok := block_ok s.blockMode_V hip hok
    have hpos := ok.pos
    have hbound := ok.bound
    have hend := State.op_add_remaining he.2
    have hremaining := he.2
    have hop' := commitBlock_op_toNat (vs := vs) (len := len) he.2
    rw [commitBlock_ip_toNat hlegal ok, hop']
    simp only [State.input_len] at hpos hbound
    refine ⟨by omega, hbound, ?_⟩
    obtain ⟨h256, hcount⟩ | ⟨-, hcount⟩ := s.blockCount_cases
    · exact ⟨by omega, by omega, .inl (by omega)⟩
    · refine ⟨by omega, by omega, .inr (BitVec.eq_of_toNat_eq ?_)⟩
      rw [hop', hcount, hend]

section run
variable {s : State} (ht : s.turns = []) (k : Nat)
include ht

/-- A run from a state with `OP = NVAL` completes in its first step. -/
theorem runSteps_of_done (hb : s.runState = .busy) (hd : s.op = s.nval) :
    runSteps (k + 1) s = .next { s with consumed := s.ip, runState := .done } := by
  obtain ⟨-, -, hdone, -⟩ := stepRunsEnabledSequencerStep s ht
  rw [runSteps_succ ((hdone hb hd).trans (exec_stepDone_of_enabled hb hd))]
  exact runSteps_of_not_busy (s := { s with consumed := s.ip, runState := .done }) (by simp) ht k

/-- A run from a block that raises ends in that fault. -/
theorem runSteps_of_block_error {r : Raise} (he : BlockEnabled s)
    (h : block s.input s.ip.toNat s.blockCount s.blockMode = .error r) : runSteps (k + 1) s = .next (s.takeFault r) := by
  have hstep : step s = .next (s.takeFault r) := by rw [step_of_enabled he ht, runBlock_of_enabled he, h]
  rw [runSteps_succ hstep]
  exact runSteps_of_not_busy (s := s.takeFault r) (by simp) ht k

/-- A run goes on after a block that decodes. -/
theorem runSteps_of_block_ok {vs : List Word32} {len : Nat} (he : BlockEnabled s)
    (h : block s.input s.ip.toNat s.blockCount s.blockMode = .ok (vs, len)) :
    runSteps (k + 1) s = runSteps k (s.commitBlock vs len s.blockCount) :=
  runSteps_succ (by rw [step_of_enabled he ht, runBlock_of_enabled he, h])

end run

theorem commitBlock_remaining {s : State} (vs : List Word32) (len : Nat) (hr : 0 < s.remaining) :
    (s.commitBlock vs len s.blockCount).remaining = s.remaining - s.blockCount := by
  rw [State.remaining, commitBlock_op_toNat hr, State.commitBlock_nval, State.remaining]
  omega

/-- A launch ends within one step per block left and one for the completion (44_stream_driver.md R187). -/
theorem runSteps_ends (k : Nat) : ∀ {s : State}, MachineInv s → s.runState = .busy → s.turns = [] →
    (s.remaining + 255) / 256 < k →
    ∃ t, runSteps k s = .next t ∧ (t.runState = .done ∨ t.runState = .error) := by
  induction k with
  | zero => intro s _ _ _ hk; omega
  | succ k ih =>
    intro s hi hb ht hk
    obtain ⟨-, hip, hop, -⟩ := machineInv_busy hi hb
    by_cases hd : s.op = s.nval
    · exact ⟨_, runSteps_of_done ht k hb hd, .inl rfl⟩
    · have he := blockEnabled_of_ne hb hop hd
      cases hblock : block s.input s.ip.toNat s.blockCount s.blockMode with
      | error r => exact ⟨_, runSteps_of_block_error ht k he hblock, .inr rfl⟩
      | ok run =>
        obtain ⟨vs, len⟩ := run
        rw [runSteps_of_block_ok ht k he hblock]
        refine ih (commitBlock_inv hi hb he.2 (block_ok s.blockMode_V hip hblock)) hb ht ?_
        have hremaining := he.2
        rw [commitBlock_remaining vs len he.2]
        obtain ⟨h256, hcount⟩ | ⟨h256, hcount⟩ := s.blockCount_cases <;> omega

/-- Settles O42: the steps asked for are enough for the blocks left and the completion. -/
theorem everyRunEnds : Obligations.EveryRunEnds := by
  intro s hi hb ht
  refine runSteps_ends _ hi hb ht ?_
  rw [State.remaining]
  omega

/-- A run from `s` that ended in DONE at `t` with the values and the length DECODE answers (44_stream_driver.md R185). -/
structure DoneWith (s t : State) (vs : List Word32) (consumed : Nat) : Prop where
  done : t.runState = .done
  consumed : t.consumed.toNat = consumed
  count : vs.length = s.remaining
  values : ∀ p (h : p < vs.length), t.out.read (s.op.toNat + p) = vs[p]
  frame : ∀ p, p < s.op.toNat ∨ s.op.toNat + vs.length ≤ p → t.out.read p = s.out.read p

/-- A run that ended in ERROR at `t` with the fault DECODE answers (44_stream_driver.md R185). -/
structure FaultedWith (t : State) (f : RunFault) : Prop where
  error : t.runState = .error
  ecause : t.ecause = f.cause.code
  einfo : t.einfo = f.cause.info
  eip : t.eip.toNat = f.eip
  eop : t.eop.toNat = f.eop

/-- A run from `s` that ended at `t` as DECODE says. -/
structure RunAgrees (s t : State) (r : Except RunFault (List Word32 × Nat)) : Prop where
  ok : ∀ vs consumed, r = .ok (vs, consumed) → DoneWith s t vs consumed
  error : ∀ f, r = .error f → FaultedWith t f

theorem runAgrees_ok {s t : State} {vs : List Word32} {consumed : Nat} (h : DoneWith s t vs consumed) :
    RunAgrees s t (.ok (vs, consumed)) where
  ok := by rintro _ _ ⟨⟩; exact h
  error := by rintro _ ⟨⟩

theorem runAgrees_error {s t : State} {f : RunFault} (h : FaultedWith t f) : RunAgrees s t (.error f) where
  ok := by rintro _ _ ⟨⟩
  error := by rintro _ ⟨⟩; exact h

theorem runAgrees_done {s : State} (hd : s.op = s.nval) :
    RunAgrees s { s with consumed := s.ip, runState := .done } (.ok ([], s.ip.toNat)) :=
  runAgrees_ok ⟨rfl, rfl, by simp [State.remaining, hd], by simp, fun _ _ => rfl⟩

theorem runAgrees_fault (s : State) (r : Raise) :
    RunAgrees s (s.takeFault r) (.error ⟨r, s.ip.toNat, s.op.toNat⟩) :=
  runAgrees_error ⟨rfl, rfl, rfl, rfl, rfl⟩

/-- DECODE's answer with the values of a block put before it. -/
def prependValues (vs : List Word32) (r : Except RunFault (List Word32 × Nat)) : Except RunFault (List Word32 × Nat) :=
  r.map fun w => (vs ++ w.1, w.2)

/-- A block committed at `s`, then a run that agrees. -/
theorem runAgrees_commit {s t : State} {vs : List Word32} {len : Nat} {r : Except RunFault (List Word32 × Nat)}
    (hr : 0 < s.remaining) (hlen : vs.length = s.blockCount) (h : RunAgrees (s.commitBlock vs len s.blockCount) t r) :
    RunAgrees s t (prependValues vs r) := by
  cases r with
  | error f => exact runAgrees_error (h.error f rfl)
  | ok w =>
    obtain ⟨ws, consumed⟩ := w
    obtain ⟨hdone, hconsumed, hcount, hvalues, hframe⟩ := h.ok ws consumed rfl
    have hop := commitBlock_op_toNat (vs := vs) (len := len) hr
    have hle := s.blockCount_le
    obtain ⟨-, -, -, -, -, hout⟩ := commitBlock_advance s len hlen
    rw [commitBlock_remaining vs len hr] at hcount
    rw [hop] at hvalues hframe
    change RunAgrees s t (.ok (vs ++ ws, consumed))
    refine runAgrees_ok ⟨hdone, hconsumed, ?count, fun p hp => ?values, fun p hp => ?frame⟩
    case count => rw [List.length_append]; omega
    case values =>
      rw [List.length_append] at hp
      by_cases hfirst : p < vs.length
      · rw [List.getElem_append_left hfirst, hframe _ (.inl (by omega)), commitBlock_read s vs len _ p hfirst]
      · rw [List.getElem_append_right (by omega), ← hvalues (p - vs.length) (by omega)]
        congr 1
        omega
    case frame =>
      rw [List.length_append] at hp
      rw [hframe p (by omega), hout p (by omega)]

section decodeFrom
variable {i : Input} {ip op tail k len : Nat} {vs : List Word32} {r : Raise}

theorem decodeFrom_succ_of_ok (h : block i ip 256 .V = .ok (vs, len)) :
    decodeFrom i ip op tail (k + 1) = prependValues vs (decodeFrom i (ip + len) (op + 256) tail k) := by
  simp only [decodeFrom, h]
  cases decodeFrom i (ip + len) (op + 256) tail k <;> rfl

theorem decodeFrom_succ_of_error (h : block i ip 256 .V = .error r) :
    decodeFrom i ip op tail (k + 1) = .error ⟨r, ip, op⟩ := by
  simp only [decodeFrom, h]

/-- The tail block is followed by a run of nothing. -/
theorem decodeFrom_tail_of_ok (ht : tail ≠ 0) (h : block i ip tail .S = .ok (vs, len)) :
    decodeFrom i ip op tail 0 = prependValues vs (decodeFrom i (ip + len) (op + tail) 0 0) := by
  simp [decodeFrom, ht, h, prependValues, Except.map]

theorem decodeFrom_tail_of_error (ht : tail ≠ 0) (h : block i ip tail .S = .error r) :
    decodeFrom i ip op tail 0 = .error ⟨r, ip, op⟩ := by
  simp only [decodeFrom, ht, ite_false, h]

end decodeFrom

/-- A run whose first block agrees with the first of DECODE's, and the rest with the rest. -/
theorem runSteps_block_agrees {s : State} {m : Nat} {r : Except RunFault (List Word32 × Nat)}
    {rest : Nat → Except RunFault (List Word32 × Nat)} (he : BlockEnabled s) (ht : s.turns = [])
    (herror : ∀ f, block s.input s.ip.toNat s.blockCount s.blockMode = .error f → r = .error ⟨f, s.ip.toNat, s.op.toNat⟩)
    (hok : ∀ vs len, block s.input s.ip.toNat s.blockCount s.blockMode = .ok (vs, len) → r = prependValues vs (rest len) ∧
      ∃ t, runSteps m (s.commitBlock vs len s.blockCount) = .next t ∧
        RunAgrees (s.commitBlock vs len s.blockCount) t (rest len)) :
    ∃ t, runSteps (m + 1) s = .next t ∧ RunAgrees s t r := by
  cases hblock : block s.input s.ip.toNat s.blockCount s.blockMode with
  | error f =>
    rw [herror f hblock]
    exact ⟨_, runSteps_of_block_error ht m he hblock, runAgrees_fault s f⟩
  | ok run =>
    obtain ⟨vs, len⟩ := run
    obtain ⟨rfl, t, hrun, hagrees⟩ := hok vs len hblock
    exact ⟨t, (runSteps_of_block_ok ht m he hblock).trans hrun,
      runAgrees_commit he.2 (block_length s.blockMode_V hblock) hagrees⟩

theorem commitBlock_ip_of_block {s : State} {vs : List Word32} {len : Nat} (hl : s.inlen.toNat ≤ Config.maxInlen)
    (h : block s.input s.ip.toNat s.blockCount s.blockMode = .ok (vs, len)) :
    (s.commitBlock vs len s.blockCount).ip.toNat = s.ip.toNat + len :=
  commitBlock_ip_toNat hl (block_ok s.blockMode_V (block_start_lt h).le h)

theorem State.op_eq_nval_of_remaining {s : State} (hop : s.op.toNat ≤ s.nval.toNat) (h : s.remaining = 0) :
    s.op = s.nval := by
  unfold State.remaining at h
  exact BitVec.eq_of_toNat_eq (by omega)

/-- A run of no whole blocks: the tail, if there is one, and the completion. -/
theorem runSteps_tail_agrees {tail : Nat} (htail : tail < 256) {s : State} (hb : s.runState = .busy) (ht : s.turns = [])
    (hl : s.inlen.toNat ≤ Config.maxInlen) (hop : s.op.toNat ≤ s.nval.toNat) (hremaining : s.remaining = tail) :
    ∃ t, runSteps ((if tail = 0 then 0 else 1) + 1) s = .next t ∧
      RunAgrees s t (decodeFrom s.input s.ip.toNat s.op.toNat tail 0) := by
  by_cases h0 : tail = 0
  · subst h0
    have hd := State.op_eq_nval_of_remaining hop hremaining
    exact ⟨_, runSteps_of_done ht 0 hb hd, runAgrees_done hd⟩
  · have he : BlockEnabled s := ⟨hb, by omega⟩
    have hcount : s.blockCount = tail := (State.blockCount_of_tail (by omega)).trans hremaining
    have hmode := State.blockMode_of_tail (s := s) (by omega)
    rw [if_neg h0]
    refine runSteps_block_agrees (rest := fun len => decodeFrom s.input (s.ip.toNat + len) (s.op.toNat + tail) 0 0) he ht
      (fun f hf => ?_) (fun vs len hblock => ⟨?_, ?_⟩)
    · rw [hcount, hmode] at hf
      exact decodeFrom_tail_of_error h0 hf
    · rw [hcount, hmode] at hblock
      exact decodeFrom_tail_of_ok h0 hblock
    · have hle := commitBlock_op_toNat (vs := vs) (len := len) he.2
      have hend := State.op_add_remaining he.2
      have hd : (s.commitBlock vs len s.blockCount).op = (s.commitBlock vs len s.blockCount).nval :=
        BitVec.eq_of_toNat_eq (by rw [hle, State.commitBlock_nval]; omega)
      refine ⟨_, runSteps_of_done (s := s.commitBlock vs len s.blockCount) ht 0 hb hd, ?_⟩
      have hagrees := runAgrees_done hd
      rw [commitBlock_ip_of_block hl hblock] at hagrees
      exact hagrees

/-- A run of `k` whole blocks and a tail of `tail` values agrees with DECODE's loop, by induction on the blocks. -/
theorem runSteps_agrees {tail : Nat} (htail : tail < 256) (k : Nat) : ∀ {s : State}, s.runState = .busy → s.turns = [] →
    s.inlen.toNat ≤ Config.maxInlen → s.op.toNat ≤ s.nval.toNat → s.remaining = 256 * k + tail →
    ∃ t, runSteps (k + (if tail = 0 then 0 else 1) + 1) s = .next t ∧
      RunAgrees s t (decodeFrom s.input s.ip.toNat s.op.toNat tail k) := by
  induction k with
  | zero =>
    intro s hb ht hl hop hremaining
    rw [Nat.zero_add]
    exact runSteps_tail_agrees htail hb ht hl hop (by omega)
  | succ k ih =>
    intro s hb ht hl hop hremaining
    have he : BlockEnabled s := ⟨hb, by omega⟩
    have hcount := State.blockCount_of_256 (s := s) (by omega)
    have hmode := State.blockMode_of_256 (s := s) (by omega)
    rw [Nat.add_right_comm k 1]
    refine runSteps_block_agrees (rest := fun len => decodeFrom s.input (s.ip.toNat + len) (s.op.toNat + 256) tail k) he ht
      (fun f hf => ?_) (fun vs len hblock => ⟨?_, ?_⟩)
    · rw [hcount, hmode] at hf
      exact decodeFrom_succ_of_error hf
    · rw [hcount, hmode] at hblock
      exact decodeFrom_succ_of_ok hblock
    · have hop' := commitBlock_op_toNat (vs := vs) (len := len) he.2
      have hend := State.op_add_remaining he.2
      obtain ⟨t, hrun, hagrees⟩ := ih (s := s.commitBlock vs len s.blockCount) hb ht hl
        (by rw [hop', State.commitBlock_nval]; omega) (by rw [commitBlock_remaining vs len he.2]; omega)
      rw [commitBlock_ip_of_block hl hblock, hop', hcount] at hagrees
      rw [hcount] at hrun ⊢
      exact ⟨t, hrun, hagrees⟩

/-- Settles O41: a launched state has both cursors 0, so its run is DECODE's from the start. -/
theorem runIsDecode : Obligations.RunIsDecode := by
  intro s hb ht hip hop hl
  have hip0 : s.ip.toNat = 0 := by rw [hip]; rfl
  have hop0 : s.op.toNat = 0 := by rw [hop]; rfl
  have hremaining : s.remaining = s.nval.toNat := by rw [State.remaining, hop0, Nat.sub_zero]
  obtain ⟨t, hrun, hagrees⟩ := runSteps_agrees (Nat.mod_lt s.nval.toNat (by decide)) (s.nval.toNat / 256) hb ht hl
    (by omega) (by rw [hremaining, Nat.div_add_mod])
  rw [hip0, hop0] at hagrees
  refine ⟨t, hrun, fun vs consumed h => ?_, fun f h => ?_⟩
  · obtain ⟨hdone, hconsumed, hcount, hvalues, hframe⟩ := hagrees.ok vs consumed h
    rw [hremaining] at hcount
    simp only [hop0, Nat.zero_add, hcount] at hvalues hframe
    exact ⟨hdone, hconsumed, hcount, fun p hp => hvalues p (hcount ▸ hp), fun p hp => hframe p (.inr hp)⟩
  · obtain ⟨herror, hcause, hinfo, heip, heop⟩ := hagrees.error f h
    exact ⟨herror, hcause, hinfo, heip, heop⟩

end Sys2Proof.Machine
end

section
/-! Proofs of the statements on what a step depends on, from 20_memory.md, and on the host's accesses, from 10_state.md and
70_reset_and_hazards.md. -/

namespace Sys2Proof.Machine

open Sys2Proof.Safety

/-- Two inputs with the same read bound and the same bytes below it (20_memory.md R70). -/
structure SameBelowBound (i j : Input) : Prop where
  len : j.len = i.len
  bytes : ∀ a < i.len + 32, readIn j.bytes a = readIn i.bytes a

section congruence
variable {i j : Input} (h : SameBelowBound i j)
include h

theorem bytesAt_congr {a k : Nat} (hr : a + k ≤ i.len + 32) : j.bytesAt a k = i.bytesAt a k :=
  List.map_congr_left fun l hl => h.bytes _ (by have := List.mem_range.1 hl; omega)

theorem memRead_congr (a k : Nat) : memRead j a k = memRead i a k := by
  unfold memRead
  rw [h.len]
  split_ifs with h0 hend
  · rfl
  · rfl
  · rw [bytesAt_congr h (by omega)]

theorem laneStream_congr (a lane : Nat) (hlane : lane < 8) : ∀ b, Readable i a (32 * b) →
    laneStream j a lane b = laneStream i a lane b
  | 0, _ => rfl
  | b + 1, hr => by
    have hend : a + 32 * (b + 1) ≤ i.len + 32 := hr.resolve_left (by omega)
    rw [laneStream, laneStream, laneStream_congr a lane hlane b (.inr (by omega)), laneWord, laneWord,
      bytesAt_congr h (by omega)]

theorem unpackS_congr (a n b : Nat) : unpackS j a n b = unpackS i a n b := by
  simp only [unpackS, memRead_congr h]

/-- UNPACK.V reads its words only after its whole payload was found below the bound. -/
theorem unpackV_congr (a b : Nat) : unpackV j a b = unpackV i a b := by
  simp only [unpackV, memRead_congr h]
  by_cases hr : Readable i a (32 * b)
  · have hlanes : (List.range 8).map (fun lane => laneStream j a lane b) =
        (List.range 8).map fun lane => laneStream i a lane b :=
      List.map_congr_left fun lane hlane => laneStream_congr h a lane (List.mem_range.1 hlane) b hr
    rw [hlanes]
  · rw [memRead_of_not_readable hr, error_bind, error_bind]

theorem unpackM_congr (q n b : Nat) (m : Mode) : unpackM j q n b m = unpackM i q n b m := by
  cases m with
  | V => exact unpackV_congr h q b
  | S => exact unpackS_congr h q n b

theorem codeword_congr (p : Nat) (x : Byte) : codeword j p x = codeword i p x := by
  simp only [codeword, vb2, vb3, vb4, vb5, memRead_congr h]

theorem codewords_congr (k : Nat) : ∀ p, codewords j p k = codewords i p k := by
  induction k with
  | zero => exact fun _ => rfl
  | succ k ih => intro p; simp only [codewords, memRead_congr h, codeword_congr h, ih]

theorem vbdec_congr (a n : Nat) : vbdec j a n = vbdec i a n := by
  simp only [vbdec, vbraw, memRead_congr h, codewords_congr h]

/-- BLOCK is a function of the bytes below the read bound (20_memory.md R62, R70). -/
theorem block_congr (a n : Nat) (m : Mode) : block j a n m = block i a n m := by
  simp only [block, bp, bpvx, bpbx, const, memRead_congr h, unpackM_congr h, unpackS_congr h, vbdec_congr h]

end congruence

section twoRuns
variable {s s' : State}

theorem State.remaining_congr (hop : s'.op = s.op) (hnval : s'.nval = s.nval) : s'.remaining = s.remaining := by
  rw [State.remaining, State.remaining, hop, hnval]

theorem State.blockCount_congr (h : s'.remaining = s.remaining) : s'.blockCount = s.blockCount := by
  rw [State.blockCount, State.blockCount, h]

theorem State.blockMode_congr (h : s'.remaining = s.remaining) : s'.blockMode = s.blockMode := by
  rw [State.blockMode, State.blockMode, h]

/-- The block at `IP` is the same in two launches with the same arguments, cursors and bytes below the bound. -/
theorem block_eq_of_same (hbytes : ∀ a < s.inlen.toNat + 32, readIn s'.inMem a = readIn s.inMem a)
    (hinlen : s'.inlen = s.inlen) (hip : s'.ip = s.ip) (hop : s'.op = s.op) (hnval : s'.nval = s.nval) :
    block s'.input s'.ip.toNat s'.blockCount s'.blockMode = block s.input s.ip.toNat s.blockCount s.blockMode := by
  have hsame : SameBelowBound s.input s'.input := ⟨congrArg BitVec.toNat hinlen, hbytes⟩
  have hremaining := State.remaining_congr hop hnval
  rw [block_congr hsame, hip, State.blockCount_congr hremaining, State.blockMode_congr hremaining]

end twoRuns

theorem step_next_of_no_turns {s t : State} (hb : s.runState = .busy) (ht : s.turns = []) (h : step s = .next t) :
    (s.op = s.nval ∧ t = { s with consumed := s.ip, runState := .done }) ∨ BlockEnabled s ∧ runBlock s = .next t := by
  rw [step_of_no_turns ht, engineStep, if_pos hb] at h
  exact enabledStep_next hb h

/-- Two steps from launches with the cursors and count of `s` ended alike in what the launch fixes. -/
def EndAlike (s t t' : State) : Prop :=
  t'.runState = t.runState ∧ t'.ip = t.ip ∧ t'.op = t.op ∧
    (t.runState = .error → t'.ecause = t.ecause ∧ t'.eip = t.eip ∧ t'.eop = t.eop ∧ t'.einfo = t.einfo) ∧
    (t.runState = .done → t'.consumed = t.consumed) ∧
    (t.runState = .busy → ∀ k, s.op.toNat ≤ k → k < s.op.toNat + s.blockCount → t'.out.read k = t.out.read k)

section endAlike
variable {s s' : State} (hip : s'.ip = s.ip) (hop : s'.op = s.op)
include hip hop

theorem endAlike_done :
    EndAlike s { s with consumed := s.ip, runState := .done } { s' with consumed := s'.ip, runState := .done } := by
  refine ⟨rfl, hip, hop, fun herr => ?_, fun _ => hip, fun hbusy => ?_⟩
  · cases herr
  · cases hbusy

theorem endAlike_fault (r : Raise) : EndAlike s (s.takeFault r) (s'.takeFault r) := by
  refine ⟨rfl, hip, hop, fun _ => ⟨rfl, hip, hop, rfl⟩, fun hdone => ?_, fun hbusy => ?_⟩
  · cases hdone
  · cases hbusy

theorem endAlike_commit {vs : List Word32} (hb : s.runState = .busy) (hb' : s'.runState = .busy)
    (hcount : s'.blockCount = s.blockCount) (hlen : vs.length = s.blockCount) (len : Nat) :
    EndAlike s (s.commitBlock vs len s.blockCount) (s'.commitBlock vs len s'.blockCount) := by
  refine ⟨hb'.trans hb.symm, ?ip, ?op, fun herr => ?error, fun hdone => ?done, fun _ k hmin hmax => ?words⟩
  case ip => rw [State.commitBlock_ip, State.commitBlock_ip, hip]
  case op => rw [State.commitBlock_op, State.commitBlock_op, hop, hcount]
  case error => exact absurd (hb.symm.trans herr) (by decide)
  case done => exact absurd (hb.symm.trans hdone) (by decide)
  case words =>
    obtain ⟨p, rfl⟩ := Nat.exists_eq_add_of_le hmin
    rw [commitBlock_read s vs _ _ p (by omega), ← hop, commitBlock_read s' vs _ _ p (by omega)]

end endAlike

/-- Settles O49: both states complete, or both run the same block, and what it answers or raises ends them alike. -/
theorem stepIsFunctionOfLaunchAndCursors : Obligations.StepIsFunctionOfLaunchAndCursors := by
  intro s s' t t' hb hb' ht ht' hbytes hinlen hip hop hnval h h'
  change EndAlike s t t'
  have hblock := block_eq_of_same hbytes hinlen hip hop hnval
  obtain ⟨hd, rfl⟩ | ⟨he, hrun⟩ := step_next_of_no_turns hb ht h
  · obtain ⟨-, rfl⟩ | ⟨he', -⟩ := step_next_of_no_turns hb' ht' h'
    · exact endAlike_done hip hop
    · exact absurd (by rw [hop, hnval, hd]) (State.op_ne_nval_of_remaining he'.2)
  · obtain ⟨hd', -⟩ | ⟨he', hrun'⟩ := step_next_of_no_turns hb' ht' h'
    · exact absurd (by rw [← hop, ← hnval, hd']) (State.op_ne_nval_of_remaining he.2)
    · rw [runBlock_of_enabled he] at hrun
      rw [runBlock_of_enabled he', hblock] at hrun'
      cases hanswer : block s.input s.ip.toNat s.blockCount s.blockMode with
      | error r =>
        rw [hanswer] at hrun hrun'
        cases hrun
        cases hrun'
        exact endAlike_fault hip hop r
      | ok run =>
        obtain ⟨vs, len⟩ := run
        rw [hanswer] at hrun hrun'
        cases hrun
        cases hrun'
        exact endAlike_commit hip hop hb hb' (State.blockCount_congr (State.remaining_congr hop hnval))
          (block_length s.blockMode_V hanswer) len

/-- A register read by index 9 and above is 0 (10_state.md R27). -/
theorem State.readReg_of_ge (s : State) {index : Nat} (h : 9 ≤ index) : s.readReg index = 0 := by
  obtain ⟨k, rfl⟩ := Nat.exists_eq_add_of_le' h
  rfl

/-- Settles O50: the queued read answers `State.readReg`, one equation per register. -/
theorem hostReadsRegisters : Obligations.HostReadsRegisters := by
  intro s index ts ht
  refine ⟨({ s with turns := ts } : State).readReg index, step_of_hostTurn ht, ?ctrl, ?status, ?nval, ?inlen, ?consumed,
    ?ecause, ?eip, ?eop, ?einfo, State.readReg_of_ge _⟩
  all_goals rintro rfl
  case status =>
    rw [State.readReg, State.statusWord]
    cases s.runState <;> rfl
  case ecause =>
    rw [State.readReg, State.ecauseWord]
    exact BitVec.toNat_setWidth_of_le (by decide)
  all_goals rfl

/-- Settles O52: each access is one branch of `hostAct`, read back by the laws of both memories. -/
theorem hostMemoryAccesses : Obligations.HostMemoryAccesses := by
  refine ⟨fun s acc ts ht => step_of_hostTurn ht, fun s a x w => ⟨fun h => ?placeIn, fun hb hl hx => ?refuseIn,
    fun h => ?placeOut, fun hb hl => ?refuseOut, fun h => ?readOut, fun hb hl => ?readBusy⟩⟩
  case placeIn =>
    have hn : ¬ (s.runState = .busy ∧ a.toNat < s.inlen.toNat + 32 ∧ x ≠ readIn s.inMem a.toNat) := by
      rintro ⟨hb, hl, hx⟩
      obtain h | h | h := h
      · exact h hb
      · exact h.not_gt hl
      · exact hx h
    exact ⟨_, if_neg hn, fun k => readIn_writeIn _ _ _ _⟩
  case refuseIn => exact if_pos ⟨hb, hl, hx⟩
  case placeOut =>
    have hn : ¬ (s.runState = .busy ∧ a.toNat < s.nval.toNat) := fun hn => h.elim (absurd hn.1) fun h => h.not_gt hn.2
    exact ⟨_, if_neg hn, fun k => OutMem.read_write _ _ _ _⟩
  case refuseOut => exact if_pos ⟨hb, hl⟩
  case readOut =>
    have hn : ¬ (s.runState = .busy ∧ a.toNat < s.nval.toNat) := fun hn => h.elim (absurd hn.1) fun h => h.not_gt hn.2
    exact ⟨_, if_neg hn, BitVec.toNat_setWidth_of_le (by decide)⟩
  case readBusy =>
    refine ⟨_, _, if_pos ⟨hb, hl⟩, ?_, Nat.lt_succ_self _⟩
    rw [BitVec.toNat_setWidth_of_le (by decide)]
    exact BitVec.isLt _

end Sys2Proof.Machine
end

section
/-! Proofs of the statements on both units run on their own, from 40_bitunpack_scalar.md and 41_bitunpack_256v.md, and on the
operational form of UNPACK.S. -/

namespace Sys2Proof.Machine

open Sys2Proof.Safety

section exec
variable (s : State) (a : Word64) (n : BitVec 9) (b : BitVec 6)

theorem exec_unpackS : exec (.unpackS a n b) s = scratchStep s (fun i sc => do
    let (vs, len) ← unpackS i a.toNat n.toNat b.toNat
    let stream ← memRead i a.toNat len
    .ok { sc with
      v := fill sc.v vs
      len := BitVec.ofNat 64 len
      sacc := BitVec.ofNat 64 (stream >>> (n.toNat * b.toNat))
      scnt := BitVec.ofNat 6 (8 * len - n.toNat * b.toNat) }) := rfl

theorem exec_unpackV : exec (.unpackV a b) s = scratchStep s (fun i sc => do
    let (vs, len) ← unpackV i a.toNat b.toNat
    .ok { sc with
      v := fill sc.v vs
      len := BitVec.ofNat 64 len
      acc := Vector.replicate 8 0
      cnt := 0 }) := rfl

end exec

section exec
variable {s : State} {a : Word64} {n : BitVec 9} {b : BitVec 6}

theorem exec_unpackS_of_readable (hb : s.runState = .busy) (hr : Readable s.input a.toNat ((n.toNat * b.toNat + 7) / 8)) :
    exec (.unpackS a n b) s = .next { s with scratch := { s.scratch with
      v := fill s.scratch.v ((List.range n.toNat).map (scalarValue s.input a.toNat b.toNat))
      len := BitVec.ofNat 64 ((n.toNat * b.toNat + 7) / 8)
      sacc := BitVec.ofNat 64 (le (s.input.bytesAt a.toNat ((n.toNat * b.toNat + 7) / 8)) >>> (n.toNat * b.toNat))
      scnt := BitVec.ofNat 6 (8 * ((n.toNat * b.toNat + 7) / 8) - n.toNat * b.toNat) } } := by
  rw [exec_unpackS]
  refine scratchStep_of_ok hb ?_
  simp only [unpackS_of_readable hr, memRead_of_readable hr, ok_bind]

theorem exec_unpackV_of_readable (hb : s.runState = .busy) (hr : Readable s.input a.toNat (32 * b.toNat)) :
    exec (.unpackV a b) s = .next { s with scratch := { s.scratch with
      v := fill s.scratch.v ((List.range 256).map (laneValue s.input a.toNat b.toNat))
      len := BitVec.ofNat 64 (32 * b.toNat), acc := Vector.replicate 8 0, cnt := 0 } } := by
  rw [exec_unpackV]
  refine scratchStep_of_ok hb ?_
  simp only [unpackV_of_readable hr, ok_bind]

end exec

/-- Settles O16: the unit's values are the functional form's. -/
theorem unpackSReturnsStreamValues : Obligations.UnpackSReturnsStreamValues := by
  intro s a n b hb _ hr
  exact ⟨_, exec_unpackS_of_readable hb hr, rfl, fun k hk hkn => by simp [hkn]⟩

/-- Settles O17: the unit's values are the functional form's, with nothing left over. -/
theorem unpackVReturnsLaneValues : Obligations.UnpackVReturnsLaneValues := by
  intro s a b hb _ hr
  exact ⟨_, exec_unpackV_of_readable hb hr, rfl, fun p hp => by simp [hp]⟩

/-- Settles O18: both units read their whole payload before the first value. -/
theorem unpackersPastBoundTakeTruncatedInput : Obligations.UnpackersPastBoundTakeTruncatedInput := by
  intro s a n b hb _
  rw [exec_unpackS, exec_unpackV]
  refine ⟨fun h => ⟨_, scratchStep_of_error hb ?scalar, takeFault_truncated s a⟩,
    fun h => ⟨_, scratchStep_of_error hb ?lanes, takeFault_truncated s a⟩⟩
  case scalar => rw [unpackS_of_not_readable h, error_bind]
  case lanes => rw [unpackV_of_not_readable h, error_bind]

section bits
variable (f : Nat → Bool) {w v b : Nat}

theorem bitsValue_and_mask (h : b ≤ w) : bitsValue f w &&& mask b = bitsValue f b := by
  apply Nat.eq_of_testBit_eq
  intro j
  rw [and_mask_testBit, bitsValue_testBit, bitsValue_testBit]
  by_cases hj : j < b
  · simp [hj, show j < w by omega]
  · simp [hj]

theorem bitsValue_shiftRight : bitsValue f w >>> b = bitsValue (fun j => f (b + j)) (w - b) := by
  apply Nat.eq_of_testBit_eq
  intro j
  rw [Nat.testBit_shiftRight, bitsValue_testBit, bitsValue_testBit]
  congr 1
  exact decide_eq_decide.2 (by omega)

/-- `v` bits set above `w` bits. -/
theorem bitsValue_or_shiftLeft {x : Nat} (hx : ∀ j, x.testBit j = (decide (j < v) && f (w + j))) :
    bitsValue f w ||| x <<< w = bitsValue f (w + v) := by
  apply Nat.eq_of_testBit_eq
  intro j
  rw [Nat.testBit_or, Nat.testBit_shiftLeft, bitsValue_testBit, bitsValue_testBit, hx]
  by_cases hj : j < w
  · simp [hj, show ¬ w ≤ j by omega, show j < w + v by omega]
  · obtain ⟨d, rfl⟩ := Nat.exists_eq_add_of_le (Nat.le_of_not_lt hj)
    simp

end bits

/-- Shifting a value into the free bits of a 64-bit accumulator (40_bitunpack_scalar.md R111, 41_bitunpack_256v.md R121). -/
theorem accumulate_toNat {f : Nat → Bool} {acc : Word64} {x w v : Nat} (hacc : acc.toNat = bitsValue f w)
    (hx : ∀ j, x.testBit j = (decide (j < v) && f (w + j))) (hfit : w + v ≤ 64) :
    (acc ||| (BitVec.ofNat 64 x <<< w)).toNat = bitsValue f (w + v) := by
  have hlt : x <<< w < 2 ^ 64 := by
    have : x < 2 ^ v := Nat.lt_pow_two_of_testBit x fun j hj => by rw [hx]; simp; omega
    rw [Nat.shiftLeft_eq]
    calc x * 2 ^ w < 2 ^ v * 2 ^ w := Nat.mul_lt_mul_of_pos_right this (Nat.two_pow_pos w)
      _ = 2 ^ (w + v) := by rw [← Nat.pow_add, Nat.add_comm]
      _ ≤ 2 ^ 64 := Nat.pow_le_pow_right (by decide) hfit
  have hshift : (BitVec.ofNat 64 x <<< w).toNat = x <<< w := by
    rw [BitVec.toNat_shiftLeft, BitVec.toNat_ofNat, Nat.shiftLeft_eq, Nat.mod_mul_mod, ← Nat.shiftLeft_eq, Nat.mod_eq_of_lt hlt]
  rw [BitVec.toNat_or, hacc, hshift, bitsValue_or_shiftLeft f hx]

/-- Bit `j` of the byte at stream bit `8 * c`. -/
theorem readIn_testBit (i : Input) (a c j : Nat) :
    (readIn i.bytes (a + c)).toNat.testBit j = (decide (j < 8) && streamBit i a (8 * c + j)) := by
  rw [BitVec.testBit_toNat]
  by_cases hj : j < 8
  · simp only [hj, decide_true, Bool.true_and, streamBit]
    rw [show (8 * c + j) / 8 = c by omega, show (8 * c + j) % 8 = j by omega]
  · simp [hj, BitVec.getLsbD_of_ge, show 8 ≤ j by omega]

/-- The accumulator of the operational UNPACK.S with `pos` stream bits taken off: the bytes shifted in end where the fetch address
stands, and the valid bits are the next ones of the stream (40_bitunpack_scalar.md R111). -/
structure ScalarAt (i : Input) (a pos : Nat) (st : ScalarAcc) : Prop where
  start : a ≤ st.p
  count : pos + st.scnt = 8 * (st.p - a)
  bits : st.sacc.toNat = bitsValue (fun j => streamBit i a (pos + j)) st.scnt

/-- What is raised is TruncatedInput at a byte past the bound, one of those that hold the first `nbits` stream bits from `a` on. -/
def PastBoundWithin (i : Input) (a nbits : Nat) (r : Raise) : Prop :=
  ∃ p, r = .truncatedInput p ∧ i.len + 32 ≤ p ∧ a ≤ p ∧ 8 * (p - a) < nbits

section scalar
variable {i : Input} {a b pos : Nat}

theorem scalarAt_shiftIn {st : ScalarAcc} (h : ScalarAt i a pos st) (hfit : st.scnt + 8 ≤ 64) :
    ScalarAt i a pos
      ⟨st.sacc ||| (BitVec.ofNat 64 (readIn i.bytes st.p).toNat <<< st.scnt), st.scnt + 8, st.p + 1⟩ := by
  obtain ⟨hstart, hcount, hbits⟩ := h
  refine ⟨by simp only; omega, by simp only; omega, accumulate_toNat hbits (fun j => ?_) hfit⟩
  obtain ⟨c, hc⟩ := Nat.exists_eq_add_of_le hstart
  rw [hc, readIn_testBit, ← Nat.add_assoc, hcount, hc, Nat.add_sub_cancel_left]

theorem scalarAt_takeOff {st : ScalarAcc} (h : ScalarAt i a pos st) (hb : b ≤ st.scnt) :
    ScalarAt i a (pos + b) ⟨st.sacc >>> b, st.scnt - b, st.p⟩ := by
  obtain ⟨hstart, hcount, hbits⟩ := h
  refine ⟨hstart, by simp only; omega, ?_⟩
  rw [BitVec.toNat_ushiftRight, hbits, bitsValue_shiftRight]
  simp only [Nat.add_assoc]

/-- Refilling shifts in bytes until `b` bits are valid, or raises at one of the bytes they need. -/
theorem scalarRefill_spec (hb : b ≤ 32) (fuel : Nat) : ∀ {st : ScalarAcc}, ScalarAt i a pos st → b ≤ st.scnt + 8 * fuel →
    (∀ st', scalarRefill i b fuel st = .ok st' → ScalarAt i a pos st' ∧ b ≤ st'.scnt ∧ st'.scnt < max (b + 8) (st.scnt + 1) ∧
      (st'.p = st.p ∨ st'.p ≤ i.len + 32)) ∧
    ∀ r, scalarRefill i b fuel st = .error r → PastBoundWithin i a (pos + b) r := by
  induction fuel with
  | zero =>
    intro st h hfuel
    refine ⟨?_, by rintro _ ⟨⟩⟩
    rintro _ ⟨⟩
    exact ⟨h, hfuel, by omega, .inl rfl⟩
  | succ fuel ih =>
    intro st h hfuel
    rw [scalarRefill]
    split_ifs with hfull
    · by_cases hr : st.p < i.len + 32
      · rw [memRead_one hr, ok_bind]
        obtain ⟨hok, herror⟩ := ih (scalarAt_shiftIn h (by omega)) (by simp only; omega)
        refine ⟨fun st' hst' => ?_, herror⟩
        obtain ⟨hat, hvalid, hmax, hend⟩ := hok st' hst'
        simp only at hmax hend
        exact ⟨hat, hvalid, by omega, by omega⟩
      · have hpast : ¬ Readable i st.p 1 := fun hread => hr (hread.resolve_left one_ne_zero)
        rw [memRead_of_not_readable hpast, error_bind]
        refine ⟨by rintro _ ⟨⟩, ?_⟩
        rintro _ ⟨⟩
        exact ⟨st.p, rfl, by omega, h.start, by have := h.count; omega⟩
    · refine ⟨?_, by rintro _ ⟨⟩⟩
      rintro _ ⟨⟩
      exact ⟨h, by omega, by omega, .inl rfl⟩

theorem scalarValue_eq (i : Input) (a b k : Nat) :
    scalarValue i a b k = BitVec.ofNat 32 (bitsValue (fun j => streamBit i a (k * b + j)) b) := rfl

/-- The output loop from value `k` on: it emits the next `n` values and leaves less than a byte, or raises at one of the bytes they
need. -/
theorem scalarLoop_spec (hb : b ≤ 32) (n : Nat) : ∀ {k : Nat} {st : ScalarAcc}, ScalarAt i a (k * b) st → st.scnt < 8 →
    (∀ vs st', scalarLoop i b n st = .ok (vs, st') → vs = (List.range' k n).map (scalarValue i a b) ∧
      ScalarAt i a ((k + n) * b) st' ∧ st'.scnt < 8 ∧ (st'.p = st.p ∨ st'.p ≤ i.len + 32)) ∧
    ∀ r, scalarLoop i b n st = .error r → PastBoundWithin i a ((k + n) * b) r := by
  induction n with
  | zero =>
    intro k st h hfew
    refine ⟨?_, by rintro _ ⟨⟩⟩
    rintro _ _ ⟨⟩
    exact ⟨rfl, h, hfew, .inl rfl⟩
  | succ n ih =>
    intro k st h hfew
    obtain ⟨hrefill, hraise⟩ := scalarRefill_spec hb b h (by omega)
    have hnext : (k + (n + 1)) * b = (k + 1 + n) * b := by rw [Nat.add_right_comm, Nat.add_assoc]
    refine ⟨fun vs st' hloop => ?_, fun r hloop => ?_⟩
    · obtain ⟨full, hfull, hloop⟩ := bind_ok_iff.1 hloop
      obtain ⟨⟨ws, last⟩, hrest, hloop⟩ := bind_ok_iff.1 hloop
      cases hloop
      obtain ⟨hat, hvalid, hmax, hend⟩ := hrefill full hfull
      have hat' := scalarAt_takeOff hat hvalid
      rw [← Nat.succ_mul] at hat'
      obtain ⟨rfl, hat'', hfew', hend'⟩ := (ih hat' (by simp only; omega)).1 _ _ hrest
      refine ⟨?_, hnext ▸ hat'', hfew', by simp only at hend'; omega⟩
      rw [List.range'_succ, List.map_cons, scalarValue_eq, hat.bits, bitsValue_and_mask _ hvalid]
    · obtain hfull | ⟨full, hfull, hloop⟩ := bind_error_iff.1 hloop
      · obtain ⟨p, hr, hpast, hstart, hwithin⟩ := hraise r hfull
        have hle : k * b + b ≤ (k + (n + 1)) * b := by rw [← Nat.succ_mul]; exact Nat.mul_le_mul_right _ (by omega)
        exact ⟨p, hr, hpast, hstart, by omega⟩
      · obtain hrest | ⟨_, -, hloop⟩ := bind_error_iff.1 hloop
        · obtain ⟨hat, hvalid, hmax, -⟩ := hrefill full hfull
          have hat' := scalarAt_takeOff hat hvalid
          rw [← Nat.succ_mul] at hat'
          rw [hnext]
          exact (ih hat' (by simp only; omega)).2 _ hrest
        · cases hloop

end scalar

/-- Settles O19: the operational form reads exactly the bytes of the functional one, so either both answer or both raise. -/
theorem scalarUnpackerOperationalAgrees : Obligations.ScalarUnpackerOperationalAgrees := by
  intro i a n b _ hb
  have hstart : ScalarAt i a (0 * b) ⟨0, 0, a⟩ := ⟨le_rfl, by simp, rfl⟩
  obtain ⟨hok, herror⟩ := scalarLoop_spec hb n hstart (Nat.succ_pos 7)
  rw [Nat.zero_add, ← List.range_eq_range'] at hok
  rw [Nat.zero_add] at herror
  change (∀ vs st', unpackSOp i a n b = .ok (vs, st') → _) at hok
  change (∀ r, unpackSOp i a n b = .error r → _) at herror
  by_cases hr : Readable i a ((n * b + 7) / 8)
  · rw [unpackS_of_readable hr]
    refine ⟨?_, by rintro _ ⟨⟩⟩
    rintro _ _ ⟨⟩
    cases hop : unpackSOp i a n b with
    | error r =>
      obtain ⟨p, -, hpast, hstart, hwithin⟩ := herror r hop
      obtain h | h := hr <;> omega
    | ok run =>
      obtain ⟨vs, st⟩ := run
      obtain ⟨rfl, ⟨hstart, hcount, hbits⟩, hfew, -⟩ := hok vs st hop
      refine ⟨st, rfl, by omega, by omega, by omega, hbits⟩
  · rw [unpackS_of_not_readable hr]
    refine ⟨by rintro _ _ ⟨⟩, ?_⟩
    rintro _ ⟨⟩
    cases hop : unpackSOp i a n b with
    | error r =>
      obtain ⟨p, rfl, hpast, -, -⟩ := herror r hop
      exact ⟨p, rfl, hpast⟩
    | ok run =>
      obtain ⟨vs, st⟩ := run
      obtain ⟨-, ⟨hstart, hcount, -⟩, hfew, hend⟩ := hok vs st hop
      simp only at hend
      exact absurd (by unfold Readable; omega) hr

end Sys2Proof.Machine
end

section
/-! Proof of the statement on the operational form of UNPACK.V, from 41_bitunpack_256v.md. -/

namespace Sys2Proof.Machine

open Sys2Proof.Safety

/-- What is raised is TruncatedInput at a word that passes the bound, one of those in the `len` bytes from `a` on. -/
def WordPastBoundWithin (i : Input) (a len : Nat) (r : Raise) : Prop :=
  ∃ p, r = .truncatedInput p ∧ i.len + 32 < p + 4 ∧ a ≤ p ∧ p + 4 ≤ a + len

/-- Bit `j` of a lane's word of group `g`. -/
theorem laneWord_testBit (i : Input) (a g lane j : Nat) :
    (laneWord i a g lane).testBit j = (decide (j < 32) && laneBit i a lane (32 * g + j)) := by
  by_cases hj : j < 32
  · rw [laneWord, le_bytesAt_testBit _ _ _ _ (by omega)]
    simp only [hj, decide_true, Bool.true_and, streamBit, laneBit]
    rw [show (32 * g + j) / 32 = g by omega, show (32 * g + j) % 32 = j by omega, show (32 * g + j) % 8 = j % 8 by omega]
  · have hlt : laneWord i a g lane < 2 ^ 32 := le_bytesAt_lt i (a + 32 * g + 4 * lane) 4
    rw [Nat.testBit_lt_two_pow (lt_of_lt_of_le hlt (Nat.pow_le_pow_right (by decide) (by omega)))]
    simp [hj]

/-- Consecutive words are read in order, and the first that passes the bound raises. -/
theorem readWords_spec {i : Input} (k : Nat) : ∀ {p : Nat},
    (∀ ws, readWords i p k = .ok ws → ws = (List.range k).map (fun l => le (i.bytesAt (p + 4 * l) 4)) ∧
      (k = 0 ∨ p + 4 * k ≤ i.len + 32)) ∧
    ∀ r, readWords i p k = .error r → WordPastBoundWithin i p (4 * k) r := by
  induction k with
  | zero =>
    intro p
    refine ⟨?_, by rintro _ ⟨⟩⟩
    rintro _ ⟨⟩
    exact ⟨rfl, .inl rfl⟩
  | succ k ih =>
    intro p
    obtain ⟨hok, herror⟩ := ih (p := p + 4)
    refine ⟨fun ws h => ?_, fun r h => ?_⟩
    · obtain ⟨w, hw, h⟩ := bind_ok_iff.1 h
      obtain ⟨ws', hws, h⟩ := bind_ok_iff.1 h
      cases h
      obtain ⟨hread, rfl⟩ := memRead_ok_iff.1 hw
      obtain ⟨rfl, hend⟩ := hok ws' hws
      have := hread.resolve_left four_ne_zero
      refine ⟨?_, .inr (by omega)⟩
      rw [List.range_succ_eq_map, List.map_cons, List.map_map]
      refine congrArg _ (List.map_congr_left fun l _ => ?_)
      rw [Function.comp_apply, show p + 4 * (l + 1) = p + 4 + 4 * l by omega]
    · obtain h | ⟨w, -, h⟩ := bind_error_iff.1 h
      · obtain ⟨-, hend, rfl⟩ := memRead_error_iff.1 h
        exact ⟨p, rfl, hend, le_rfl, by omega⟩
      · obtain h | ⟨_, -, h⟩ := bind_error_iff.1 h
        · obtain ⟨q, hr, hpast, hmin, hmax⟩ := herror r h
          exact ⟨q, hr, hpast, by omega, by omega⟩
        · cases h

/-- The accumulators of the operational UNPACK.V with `k` values of each lane emitted and `g` groups read: no group past the `b`
of the payload, and the valid bits of each lane are its next ones (41_bitunpack_256v.md R121). -/
structure LaneAt (i : Input) (a b k g : Nat) (st : LaneAcc) : Prop where
  emitted : st.o = 8 * k
  address : st.p = a + 32 * g
  count : k * b + st.cnt = 32 * g
  values : k ≤ 32
  groups : g ≤ b
  bits : ∀ lane (h : lane < 8), st.acc[lane].toNat = bitsValue (fun j => laneBit i a lane (k * b + j)) st.cnt

section lanes
variable {i : Input} {a b k g : Nat} {st : LaneAcc}

/-- While less than a value is valid and values are missing, the payload has a group more. -/
theorem laneAt_groups_lt (h : LaneAt i a b k g st) (hk : k < 32) (hfew : st.cnt < b) : g < b := by
  have hle : (k + 1) * b ≤ 32 * b := Nat.mul_le_mul_right b hk
  have := h.count
  rw [Nat.succ_mul] at hle
  omega

/-- A refill reads the next group into the free bits of every accumulator, or raises at one of its words. -/
theorem laneRefill_spec (hb : b ≤ 32) (h : LaneAt i a b k g st) (hk : k < 32) (hfew : st.cnt < b) :
    (∀ full, laneRefill i st = .ok full → LaneAt i a b k (g + 1) full ∧ a + 32 * (g + 1) ≤ i.len + 32) ∧
    ∀ r, laneRefill i st = .error r → WordPastBoundWithin i a (32 * b) r := by
  have hg := laneAt_groups_lt h hk hfew
  obtain ⟨hemitted, haddress, hcount, hvalues, -, hbits⟩ := h
  obtain ⟨hok, herror⟩ := readWords_spec (i := i) 8 (p := st.p)
  refine ⟨fun full hfull => ?_, fun r hr => ?_⟩
  · obtain ⟨ws, hws, hfull⟩ := bind_ok_iff.1 hfull
    cases hfull
    obtain ⟨rfl, hend⟩ := hok ws hws
    refine ⟨⟨hemitted, by simp only; omega, by simp only; omega, hvalues, hg, fun lane hlane => ?_⟩, by omega⟩
    have hword : ((List.range 8).map fun l => le (i.bytesAt (st.p + 4 * l) 4)).getD lane 0 = laneWord i a g lane := by
      simp [hlane, haddress, laneWord]
    simp only [Vector.getElem_ofFn, hword]
    refine accumulate_toNat (hbits lane hlane) (fun j => ?_) (by omega)
    rw [laneWord_testBit, ← hcount, Nat.add_assoc]
  · obtain hr | ⟨_, -, hr⟩ := bind_error_iff.1 hr
    · obtain ⟨p, hp, hpast, hmin, hmax⟩ := herror r hr
      exact ⟨p, hp, hpast, by omega, by omega⟩
    · cases hr

/-- The values at positions `8 * lo .. 8 * hi - 1`, in order. -/
def laneValues (i : Input) (a b lo hi : Nat) : List Word32 := (List.range' (8 * lo) (8 * (hi - lo))).map (laneValue i a b)

theorem laneValues_append {lo mid hi : Nat} (h : lo ≤ mid) (h' : mid ≤ hi) :
    laneValues i a b lo mid ++ laneValues i a b mid hi = laneValues i a b lo hi := by
  have hmid : 8 * mid = 8 * lo + 8 * (mid - lo) := by omega
  have hlen : 8 * (mid - lo) + 8 * (hi - mid) = 8 * (hi - lo) := by omega
  rw [laneValues, laneValues, laneValues, ← List.map_append, hmid, List.range'_append_1, hlen]

/-- One pass of the drain emits the next value of every lane. -/
theorem laneAt_emit (h : LaneAt i a b k g st) (hvalid : b ≤ st.cnt) :
    st.acc.toList.map (fun x => BitVec.ofNat 32 (x.toNat &&& mask b)) = laneValues i a b k (k + 1) := by
  refine List.ext_getElem (by simp [laneValues]) fun lane hlane _ => ?_
  have hlane : lane < 8 := by simpa using hlane
  have hposition : (8 * k + lane) % 8 = lane ∧ (8 * k + lane) / 8 = k := by omega
  simp only [laneValues, List.getElem_map, List.getElem_range', Vector.getElem_toList, Nat.one_mul]
  rw [h.bits lane hlane, bitsValue_and_mask _ hvalid, laneValue, hposition.1, hposition.2]

theorem laneAt_takeOff (h : LaneAt i a b k g st) (hk : k < 32) (hvalid : b ≤ st.cnt) :
    LaneAt i a b (k + 1) g { st with acc := st.acc.map fun (x : Word64) => x >>> b, cnt := st.cnt - b, o := st.o + 8 } := by
  obtain ⟨hemitted, haddress, hcount, hvalues, hgroups, hbits⟩ := h
  refine ⟨by simp only; omega, haddress, ?_, hk, hgroups, fun lane hlane => ?_⟩
  · rw [Nat.succ_mul]; simp only; omega
  · rw [Vector.getElem_map, BitVec.toNat_ushiftRight, hbits lane hlane, bitsValue_shiftRight, Nat.succ_mul]
    simp only [Nat.add_assoc]

/-- The drain emits values while a whole one is valid and one is missing. -/
theorem laneDrain_spec (fuel : Nat) : ∀ {k : Nat} {st : LaneAcc}, LaneAt i a b k g st → 32 ≤ k + fuel →
    ∃ k', (laneDrain b fuel st).1 = laneValues i a b k k' ∧ k ≤ k' ∧ LaneAt i a b k' g (laneDrain b fuel st).2 ∧
      (k' = 32 ∨ (laneDrain b fuel st).2.cnt < b) := by
  induction fuel with
  | zero =>
    intro k st h hfuel
    have hk := h.values
    exact ⟨k, by simp [laneDrain, laneValues], le_rfl, h, .inl (by omega)⟩
  | succ fuel ih =>
    intro k st h hfuel
    rw [laneDrain]
    split_ifs with hgo
    · have hk : k < 32 := by have := h.emitted; omega
      obtain ⟨k', hvs, hk', hat, hend⟩ := ih (laneAt_takeOff h hk hgo.1) (by omega)
      refine ⟨k', ?_, by omega, hat, hend⟩
      rw [laneAt_emit h hgo.1]
      exact (congrArg _ hvs).trans (laneValues_append (by omega) hk')
    · have hk := h.values
      have hemitted := h.emitted
      exact ⟨k, by simp [laneValues], le_rfl, h, by simp only; omega⟩

/-- With every value emitted every group is read and nothing is left over. -/
theorem laneAt_end (h : LaneAt i a b 32 g st) : g = b ∧ st.cnt = 0 := by
  have hcount := h.count
  have hgroups := h.groups
  omega

/-- The output loop peels off a refill and the drain after it. -/
theorem laneLoop_succ (i : Input) (b fuel : Nat) (st : LaneAcc) : laneLoop i b (fuel + 1) st =
    if st.o < 256 then
      laneRefill i st >>= fun full => laneLoop i b fuel (laneDrain b 32 full).2 >>= fun r =>
        .ok ((laneDrain b 32 full).1 ++ r.1, r.2)
    else .ok ([], st) := rfl

/-- The output loop emits every value left from exactly the groups of the payload, or raises at one of their words. -/
theorem laneLoop_spec (hb : b ≤ 32) (fuel : Nat) : ∀ {k g : Nat} {st : LaneAcc}, LaneAt i a b k g st →
    (k = 32 ∨ st.cnt < b) → b ≤ g + fuel →
    (∀ vs st', laneLoop i b fuel st = .ok (vs, st') → vs = laneValues i a b k 32 ∧ LaneAt i a b 32 b st' ∧
      (g = b ∨ a + 32 * b ≤ i.len + 32)) ∧
    ∀ r, laneLoop i b fuel st = .error r → WordPastBoundWithin i a (32 * b) r := by
  have hdone {k g : Nat} {st : LaneAcc} (h : LaneAt i a b k g st) (hk : k = 32) :
      [] = laneValues i a b k 32 ∧ LaneAt i a b 32 b st ∧ (g = b ∨ a + 32 * b ≤ i.len + 32) := by
    subst hk
    obtain ⟨rfl, -⟩ := laneAt_end h
    exact ⟨rfl, h, .inl rfl⟩
  induction fuel with
  | zero =>
    intro k g st h hfew hfuel
    refine ⟨?_, by rintro _ ⟨⟩⟩
    rintro _ _ ⟨⟩
    refine hdone h (h.values.lt_or_eq.resolve_left fun hk => ?_)
    have := laneAt_groups_lt h hk (hfew.resolve_left hk.ne)
    omega
  | succ fuel ih =>
    intro k g st h hfew hfuel
    have hemitted := h.emitted
    have hvalues := h.values
    rw [laneLoop_succ]
    split_ifs with hgo
    · have hk : k < 32 := by omega
      obtain ⟨hrefill, hraise⟩ := laneRefill_spec hb h hk (hfew.resolve_left hk.ne)
      have hpass (full : LaneAcc) (hfull : laneRefill i st = .ok full) :=
        laneDrain_spec 32 (hrefill full hfull).1 (Nat.le_add_left 32 k)
      refine ⟨fun vs st' hloop => ?_, fun r hloop => ?_⟩
      · obtain ⟨full, hfull, hloop⟩ := bind_ok_iff.1 hloop
        obtain ⟨⟨ws, last⟩, hrest, hloop⟩ := bind_ok_iff.1 hloop
        cases hloop
        obtain ⟨k', hvs, hk', hat, hfew'⟩ := hpass full hfull
        obtain ⟨rfl, hlast, hend⟩ := (ih hat hfew' (by omega)).1 ws last hrest
        have hbound := (hrefill full hfull).2
        refine ⟨?_, hlast, .inr (by obtain rfl | hend := hend <;> omega)⟩
        rw [hvs, laneValues_append hk' hat.values]
      · obtain hfull | ⟨full, hfull, hloop⟩ := bind_error_iff.1 hloop
        · exact hraise r hfull
        · obtain hrest | ⟨_, -, hloop⟩ := bind_error_iff.1 hloop
          · obtain ⟨k', -, -, hat, hfew'⟩ := hpass full hfull
            exact (ih hat hfew' (by omega)).2 r hrest
          · cases hloop
    · refine ⟨?_, by rintro _ ⟨⟩⟩
      rintro _ _ ⟨⟩
      exact hdone h (by omega)

end lanes

theorem laneValues_all (i : Input) (a b : Nat) : laneValues i a b 0 32 = (List.range 256).map (laneValue i a b) := by
  rw [laneValues, List.range_eq_range']

/-- With no bits per value every value is 0 and nothing is read. -/
theorem laneValues_zero_width (i : Input) (a : Nat) :
    (List.range 256).map (laneValue i a 0) = List.replicate 256 0 := by
  rw [show laneValue i a 0 = fun _ => 0 from rfl, List.map_const', List.length_range]

theorem laneAt_start (i : Input) (a b : Nat) : LaneAt i a b 0 0 ⟨Vector.replicate 8 0, 0, a, 0⟩ :=
  ⟨rfl, rfl, by simp, by decide, Nat.zero_le b, fun lane hlane => by simp [bitsValue]⟩

theorem laneAt_acc_zero {i : Input} {a b k g : Nat} {st : LaneAcc} (h : LaneAt i a b k g st) (hcnt : st.cnt = 0) :
    st.acc = Vector.replicate 8 0 := by
  refine Vector.ext fun lane hlane => BitVec.eq_of_toNat_eq ?_
  rw [h.bits lane hlane, hcnt, Vector.getElem_replicate]
  rfl

/-- Settles O20: the refill-and-drain form reads exactly the groups of the payload, so either both answer or both raise. -/
theorem laneUnpackerOperationalAgrees : Obligations.LaneUnpackerOperationalAgrees := by
  intro i a b hb
  obtain rfl | hpos := Nat.eq_zero_or_pos b
  · rw [unpackV_of_readable (.inl rfl), laneValues_zero_width]
    refine ⟨?_, by rintro _ ⟨⟩⟩
    rintro _ _ ⟨⟩
    exact ⟨_, rfl, rfl, rfl, rfl⟩
  · obtain ⟨hok, herror⟩ := laneLoop_spec hb 32 (laneAt_start i a b) (.inr hpos) (by omega)
    have hop : unpackVOp i a b = laneLoop i b 32 ⟨Vector.replicate 8 0, 0, a, 0⟩ := if_neg hpos.ne'
    rw [← hop, laneValues_all] at hok
    rw [← hop] at herror
    by_cases hr : Readable i a (32 * b)
    · rw [unpackV_of_readable hr]
      refine ⟨?_, by rintro _ ⟨⟩⟩
      rintro _ _ ⟨⟩
      cases hrun : unpackVOp i a b with
      | error r =>
        obtain ⟨p, -, hpast, hmin, hmax⟩ := herror r hrun
        obtain h | h := hr <;> omega
      | ok run =>
        obtain ⟨vs, st⟩ := run
        obtain ⟨rfl, hlast, -⟩ := hok vs st hrun
        have hcnt := (laneAt_end hlast).2
        exact ⟨st, rfl, hlast.address, hcnt, laneAt_acc_zero hlast hcnt⟩
    · rw [unpackV_of_not_readable hr]
      refine ⟨by rintro _ _ ⟨⟩, ?_⟩
      rintro _ ⟨⟩
      cases hrun : unpackVOp i a b with
      | error r =>
        obtain ⟨p, rfl, hpast, -, -⟩ := herror r hrun
        exact ⟨p, rfl, hpast⟩
      | ok run =>
        obtain ⟨vs, st⟩ := run
        obtain ⟨-, -, hgroups | hend⟩ := hok vs st hrun
        · exact absurd hgroups hpos.ne
        · exact absurd (.inr hend) hr

end Sys2Proof.Machine
end
